-- ==== Sys2Proof/Word.lean ====
section
/-! DEFINITION. The two value widths of the hardware (`00_scope.md` R5) and the plainest of the notation of R6. -/

namespace Sys2Proof

/-- `u8`: the width of A, X, Y, SP, P and of every memory cell (R4 `XLEN`, R5). -/
abbrev Byte := BitVec 8

/-- `u16`: the width of PC and of every address (R4 `PCLEN`, R5). -/
abbrev Word := BitVec 16

/-- `zext_16(v)` of R6. -/
def zext16 (v : Byte) : Word := v.setWidth 16

/-- `lo(w) = w[7:0]` of R6. -/
def loByte (w : Word) : Byte := w.setWidth 8

/-- `hi(w) = w[15:8]` of R6. -/
def hiByte (w : Word) : Byte := (w >>> 8).setWidth 8

end Sys2Proof
end

