-- ==== Sys2Proof/Syntax.lean ====
section
/-! DEFINITION. The instruction set as syntax: six mnemonics, nine addressing modes, two formats (`30_encoding.md` R80, R84)
and the 41 forms, one constructor of `Instr` per row of spec/opcode_table.json. An operand has the width its format gives
it, so an operand of the wrong width cannot be written (`50_execution.md` R154). -/

namespace Sys2Proof

/-- The six mnemonics of R84 (the document's "minimum set"). -/
inductive Mnemonic where
  | lda
  | ldx
  | ldy
  | adc
  | and
  | sta
  deriving DecidableEq, Repr

/-- The nine addressing modes (`20_memory.md` section 2). -/
inductive Mode where
  | imm
  | zp
  | zpx
  | zpy
  | abs
  | absx
  | absy
  | indx
  | indy
  deriving DecidableEq, Repr

/-- The two formats of R80. -/
inductive Format where
  | op8
  | op16
  deriving DecidableEq, Repr

/-- The length in bytes of a format (R80). -/
def Format.length : Format → Nat
  | .op8 => 2
  | .op16 => 3

/-- The format each mode uses (R80). -/
def Mode.format : Mode → Format
  | .imm | .zp | .zpx | .zpy | .indx | .indy => .op8
  | .abs | .absx | .absy => .op16

/-- An already-parsed operand: the byte `d` of an `OP8` form or the word `w` of an `OP16` form (R82, R83, R152). -/
inductive Operand where
  | byte (d : Byte)
  | word (w : Word)
  deriving DecidableEq, Repr

/-- The format whose operand this is. -/
def Operand.format : Operand → Format
  | .byte _ => .op8
  | .word _ => .op16

/-- The 41 forms with their operands (R84). -/
inductive Instr where
  | ldaImm (d : Byte)
  | ldaZp (d : Byte)
  | ldaZpx (d : Byte)
  | ldaAbs (w : Word)
  | ldaAbsx (w : Word)
  | ldaAbsy (w : Word)
  | ldaIndx (d : Byte)
  | ldaIndy (d : Byte)
  | ldxImm (d : Byte)
  | ldxZp (d : Byte)
  | ldxZpy (d : Byte)
  | ldxAbs (w : Word)
  | ldxAbsy (w : Word)
  | ldyImm (d : Byte)
  | ldyZp (d : Byte)
  | ldyZpx (d : Byte)
  | ldyAbs (w : Word)
  | ldyAbsx (w : Word)
  | adcImm (d : Byte)
  | adcZp (d : Byte)
  | adcZpx (d : Byte)
  | adcAbs (w : Word)
  | adcAbsx (w : Word)
  | adcAbsy (w : Word)
  | adcIndx (d : Byte)
  | adcIndy (d : Byte)
  | andImm (d : Byte)
  | andZp (d : Byte)
  | andZpx (d : Byte)
  | andAbs (w : Word)
  | andAbsx (w : Word)
  | andAbsy (w : Word)
  | andIndx (d : Byte)
  | andIndy (d : Byte)
  | staZp (d : Byte)
  | staZpx (d : Byte)
  | staAbs (w : Word)
  | staAbsx (w : Word)
  | staAbsy (w : Word)
  | staIndx (d : Byte)
  | staIndy (d : Byte)
  deriving DecidableEq, Repr

namespace Instr

/-- The mnemonic of a form (R84). -/
def mnemonic : Instr → Mnemonic
  | .ldaImm _ | .ldaZp _ | .ldaZpx _ | .ldaAbs _ | .ldaAbsx _ | .ldaAbsy _ | .ldaIndx _ | .ldaIndy _ => .lda
  | .ldxImm _ | .ldxZp _ | .ldxZpy _ | .ldxAbs _ | .ldxAbsy _ => .ldx
  | .ldyImm _ | .ldyZp _ | .ldyZpx _ | .ldyAbs _ | .ldyAbsx _ => .ldy
  | .adcImm _ | .adcZp _ | .adcZpx _ | .adcAbs _ | .adcAbsx _ | .adcAbsy _ | .adcIndx _ | .adcIndy _ => .adc
  | .andImm _ | .andZp _ | .andZpx _ | .andAbs _ | .andAbsx _ | .andAbsy _ | .andIndx _ | .andIndy _ => .and
  | .staZp _ | .staZpx _ | .staAbs _ | .staAbsx _ | .staAbsy _ | .staIndx _ | .staIndy _ => .sta

/-- The addressing mode of a form (R84). -/
def mode : Instr → Mode
  | .ldaImm _ | .ldxImm _ | .ldyImm _ | .adcImm _ | .andImm _ => .imm
  | .ldaZp _ | .ldxZp _ | .ldyZp _ | .adcZp _ | .andZp _ | .staZp _ => .zp
  | .ldaZpx _ | .ldyZpx _ | .adcZpx _ | .andZpx _ | .staZpx _ => .zpx
  | .ldxZpy _ => .zpy
  | .ldaAbs _ | .ldxAbs _ | .ldyAbs _ | .adcAbs _ | .andAbs _ | .staAbs _ => .abs
  | .ldaAbsx _ | .ldyAbsx _ | .adcAbsx _ | .andAbsx _ | .staAbsx _ => .absx
  | .ldaAbsy _ | .ldxAbsy _ | .adcAbsy _ | .andAbsy _ | .staAbsy _ => .absy
  | .ldaIndx _ | .adcIndx _ | .andIndx _ | .staIndx _ => .indx
  | .ldaIndy _ | .adcIndy _ | .andIndy _ | .staIndy _ => .indy

/-- The operand of a form: `d` in format `OP8`, `w` in format `OP16` (R80). -/
def operand : Instr → Operand
  | .ldaImm d | .ldaZp d | .ldaZpx d | .ldaIndx d | .ldaIndy d => .byte d
  | .ldaAbs w | .ldaAbsx w | .ldaAbsy w => .word w
  | .ldxImm d | .ldxZp d | .ldxZpy d => .byte d
  | .ldxAbs w | .ldxAbsy w => .word w
  | .ldyImm d | .ldyZp d | .ldyZpx d => .byte d
  | .ldyAbs w | .ldyAbsx w => .word w
  | .adcImm d | .adcZp d | .adcZpx d | .adcIndx d | .adcIndy d => .byte d
  | .adcAbs w | .adcAbsx w | .adcAbsy w => .word w
  | .andImm d | .andZp d | .andZpx d | .andIndx d | .andIndy d => .byte d
  | .andAbs w | .andAbsx w | .andAbsy w => .word w
  | .staZp d | .staZpx d | .staIndx d | .staIndy d => .byte d
  | .staAbs w | .staAbsx w | .staAbsy w => .word w

/-- The length of the encoded instruction in bytes, `L` of R156. -/
def length (i : Instr) : Nat := i.mode.format.length

end Instr

/-- What the host presents at the direct-operation port: an operation named by mnemonic and mode, and an operand
(`30_encoding.md` R94, `50_execution.md` R152). -/
structure Request where
  mnemonic : Mnemonic
  mode : Mode
  operand : Operand
  deriving DecidableEq, Repr

/-- The request that names a form with its operand. -/
def Instr.request (i : Instr) : Request := ⟨i.mnemonic, i.mode, i.operand⟩

end Sys2Proof
end

