-- ==== Sys2Proof/WellFormed.lean ====
section
/-! DEFINITION. What makes a request at the direct-operation port one of the 41 forms: the pair is in the matrix of
`30_encoding.md` R84 and the operand has the width of the mode's format (`50_execution.md` R154). An `Instr` meets both
by its type, which `Sys2Proof.Laws.RequestOk` proves form by form. -/

namespace Sys2Proof

/-- The (mnemonic, mode) matrix of R84 (the spec's decision D9, general knowledge G2; PRESUMED, log entry 3). -/
def Mnemonic.hasMode : Mnemonic → Mode → Bool
  | .lda, .imm | .lda, .zp | .lda, .zpx | .lda, .abs | .lda, .absx | .lda, .absy | .lda, .indx | .lda, .indy => true
  | .ldx, .imm | .ldx, .zp | .ldx, .zpy | .ldx, .abs | .ldx, .absy => true
  | .ldy, .imm | .ldy, .zp | .ldy, .zpx | .ldy, .abs | .ldy, .absx => true
  | .adc, .imm | .adc, .zp | .adc, .zpx | .adc, .abs | .adc, .absx | .adc, .absy | .adc, .indx | .adc, .indy => true
  | .and, .imm | .and, .zp | .and, .zpx | .and, .abs | .and, .absx | .and, .absy | .and, .indx | .and, .indy => true
  | .sta, .zp | .sta, .zpx | .sta, .abs | .sta, .absx | .sta, .absy | .sta, .indx | .sta, .indy => true
  | _, _ => false

/-- The operand has the width the mode's format gives it (R80, R154; DESIGN CHOICE, log entry 18). -/
def Operand.fits (x : Operand) (md : Mode) : Bool := x.format == md.format

/-- The request names one of the 41 forms with an operand of its width (R84, R154). -/
def Request.wellFormed (r : Request) : Bool := r.mnemonic.hasMode r.mode && r.operand.fits r.mode

/-- Well-formedness of an instruction: that of the request that names it. -/
def Instr.wellFormed (i : Instr) : Bool := i.request.wellFormed

end Sys2Proof
end

