-- ==== Sys2Proof/Decode.lean ====
section
/-! DEFINITION. The binary encoding (`30_encoding.md`): the opcode map of R85 to R87 as a table, `Decode` of R89, the
decoder of a byte sequence, the encoder, and the form a request names (R94, R154). -/

namespace Sys2Proof

/-- `{h, l}` of R6 for a low byte and a high byte: the little-endian word of R55 and R83. -/
def wordOfBytes (l h : Byte) : Word := (h.setWidth 16 <<< 8) ||| l.setWidth 16

/-- What a legal opcode byte names: a form still waiting for its operand byte or its operand word (R80, R89). -/
inductive OpcodeForm where
  | op8 (build : Byte → Instr)
  | op16 (build : Word → Instr)

/-- The number of operand bytes that follow the opcode byte (R80). -/
def OpcodeForm.operandBytes : OpcodeForm → Nat
  | .op8 _ => 1
  | .op16 _ => 2

/-- One row of the opcode map. -/
structure OpcodeRow where
  opcode : Byte
  form : OpcodeForm

/-- The LDA column of the opcode map (R85; the spec's decision D10, general knowledge G1; PRESUMED, log entry 3). -/
def ldaRows : List OpcodeRow :=
  [ ⟨0xA9#8, .op8 .ldaImm⟩
  , ⟨0xA5#8, .op8 .ldaZp⟩
  , ⟨0xB5#8, .op8 .ldaZpx⟩
  , ⟨0xAD#8, .op16 .ldaAbs⟩
  , ⟨0xBD#8, .op16 .ldaAbsx⟩
  , ⟨0xB9#8, .op16 .ldaAbsy⟩
  , ⟨0xA1#8, .op8 .ldaIndx⟩
  , ⟨0xB1#8, .op8 .ldaIndy⟩ ]

/-- The LDX column of the opcode map (R86; the spec's decision D10, general knowledge G1; PRESUMED, log entry 3). -/
def ldxRows : List OpcodeRow :=
  [ ⟨0xA2#8, .op8 .ldxImm⟩
  , ⟨0xA6#8, .op8 .ldxZp⟩
  , ⟨0xB6#8, .op8 .ldxZpy⟩
  , ⟨0xAE#8, .op16 .ldxAbs⟩
  , ⟨0xBE#8, .op16 .ldxAbsy⟩ ]

/-- The LDY column of the opcode map (R87; the spec's decision D10, general knowledge G1; PRESUMED, log entry 3). -/
def ldyRows : List OpcodeRow :=
  [ ⟨0xA0#8, .op8 .ldyImm⟩
  , ⟨0xA4#8, .op8 .ldyZp⟩
  , ⟨0xB4#8, .op8 .ldyZpx⟩
  , ⟨0xAC#8, .op16 .ldyAbs⟩
  , ⟨0xBC#8, .op16 .ldyAbsx⟩ ]

/-- The ADC column of the opcode map (R85; the spec's decision D10, general knowledge G1; PRESUMED, log entry 3). -/
def adcRows : List OpcodeRow :=
  [ ⟨0x69#8, .op8 .adcImm⟩
  , ⟨0x65#8, .op8 .adcZp⟩
  , ⟨0x75#8, .op8 .adcZpx⟩
  , ⟨0x6D#8, .op16 .adcAbs⟩
  , ⟨0x7D#8, .op16 .adcAbsx⟩
  , ⟨0x79#8, .op16 .adcAbsy⟩
  , ⟨0x61#8, .op8 .adcIndx⟩
  , ⟨0x71#8, .op8 .adcIndy⟩ ]

/-- The AND column of the opcode map (R85; the spec's decision D10, general knowledge G1; PRESUMED, log entry 3). -/
def andRows : List OpcodeRow :=
  [ ⟨0x29#8, .op8 .andImm⟩
  , ⟨0x25#8, .op8 .andZp⟩
  , ⟨0x35#8, .op8 .andZpx⟩
  , ⟨0x2D#8, .op16 .andAbs⟩
  , ⟨0x3D#8, .op16 .andAbsx⟩
  , ⟨0x39#8, .op16 .andAbsy⟩
  , ⟨0x21#8, .op8 .andIndx⟩
  , ⟨0x31#8, .op8 .andIndy⟩ ]

/-- The STA column of the opcode map (R85; the spec's decision D10, general knowledge G1; PRESUMED, log entry 3). -/
def staRows : List OpcodeRow :=
  [ ⟨0x85#8, .op8 .staZp⟩
  , ⟨0x95#8, .op8 .staZpx⟩
  , ⟨0x8D#8, .op16 .staAbs⟩
  , ⟨0x9D#8, .op16 .staAbsx⟩
  , ⟨0x99#8, .op16 .staAbsy⟩
  , ⟨0x81#8, .op8 .staIndx⟩
  , ⟨0x91#8, .op8 .staIndy⟩ ]

/-- `OPCODE_MAP`: the 41 legal opcode bytes (R85 to R88). -/
def opcodeTable : List OpcodeRow :=
  ldaRows ++ ldxRows ++ ldyRows ++ adcRows ++ andRows ++ staRows

/-- `Decode(b)` of R89: the form of a legal opcode byte, `none` for the illegal ones of R90. It matches the full byte. -/
def decodeOpcode (b : Byte) : Option OpcodeForm :=
  (opcodeTable.find? (fun r => r.opcode == b)).map OpcodeRow.form

/-- Why a byte sequence is not an instruction. -/
inductive DecodeError where
  /-- The first byte is not one of the 41 (R90). -/
  | illegalOpcode (b : Byte)
  /-- The sequence ends before the instruction does (DESIGN CHOICE, log entry 16). -/
  | truncated
  deriving DecidableEq, Repr

/-- The operand of a form, taken from the bytes after its opcode byte, low byte first (R80, R82, R83). -/
def takeOperand : OpcodeForm → List Byte → Except DecodeError (Instr × List Byte)
  | .op8 build, d :: rest => .ok (build d, rest)
  | .op16 build, wl :: wh :: rest => .ok (build (wordOfBytes wl wh), rest)
  | .op8 _, [] => .error .truncated
  | .op16 _, [] => .error .truncated
  | .op16 _, [_] => .error .truncated

/-- The decoder: the instruction at the head of a byte sequence and the bytes after it (R80, R89). Total on all bytes. -/
def decode : List Byte → Except DecodeError (Instr × List Byte)
  | [] => .error .truncated
  | b :: rest =>
    match decodeOpcode b with
    | none => .error (.illegalOpcode b)
    | some form => takeOperand form rest

/-- The bytes of a form with a byte operand (format `OP8`, R80). -/
def encodeOp8 (opcode d : Byte) : List Byte := [opcode, d]

/-- The bytes of a form with a word operand, low byte first (format `OP16`, R80, R83). -/
def encodeOp16 (opcode : Byte) (w : Word) : List Byte := [opcode, loByte w, hiByte w]

/-- The encoder: the bytes of an instruction, from the tables of R85, R86 and R87. -/
def encode : Instr → List Byte
  | .ldaImm d => encodeOp8 0xA9#8 d
  | .ldaZp d => encodeOp8 0xA5#8 d
  | .ldaZpx d => encodeOp8 0xB5#8 d
  | .ldaAbs w => encodeOp16 0xAD#8 w
  | .ldaAbsx w => encodeOp16 0xBD#8 w
  | .ldaAbsy w => encodeOp16 0xB9#8 w
  | .ldaIndx d => encodeOp8 0xA1#8 d
  | .ldaIndy d => encodeOp8 0xB1#8 d
  | .ldxImm d => encodeOp8 0xA2#8 d
  | .ldxZp d => encodeOp8 0xA6#8 d
  | .ldxZpy d => encodeOp8 0xB6#8 d
  | .ldxAbs w => encodeOp16 0xAE#8 w
  | .ldxAbsy w => encodeOp16 0xBE#8 w
  | .ldyImm d => encodeOp8 0xA0#8 d
  | .ldyZp d => encodeOp8 0xA4#8 d
  | .ldyZpx d => encodeOp8 0xB4#8 d
  | .ldyAbs w => encodeOp16 0xAC#8 w
  | .ldyAbsx w => encodeOp16 0xBC#8 w
  | .adcImm d => encodeOp8 0x69#8 d
  | .adcZp d => encodeOp8 0x65#8 d
  | .adcZpx d => encodeOp8 0x75#8 d
  | .adcAbs w => encodeOp16 0x6D#8 w
  | .adcAbsx w => encodeOp16 0x7D#8 w
  | .adcAbsy w => encodeOp16 0x79#8 w
  | .adcIndx d => encodeOp8 0x61#8 d
  | .adcIndy d => encodeOp8 0x71#8 d
  | .andImm d => encodeOp8 0x29#8 d
  | .andZp d => encodeOp8 0x25#8 d
  | .andZpx d => encodeOp8 0x35#8 d
  | .andAbs w => encodeOp16 0x2D#8 w
  | .andAbsx w => encodeOp16 0x3D#8 w
  | .andAbsy w => encodeOp16 0x39#8 w
  | .andIndx d => encodeOp8 0x21#8 d
  | .andIndy d => encodeOp8 0x31#8 d
  | .staZp d => encodeOp8 0x85#8 d
  | .staZpx d => encodeOp8 0x95#8 d
  | .staAbs w => encodeOp16 0x8D#8 w
  | .staAbsx w => encodeOp16 0x9D#8 w
  | .staAbsy w => encodeOp16 0x99#8 w
  | .staIndx d => encodeOp8 0x81#8 d
  | .staIndy d => encodeOp8 0x91#8 d

/-- The form that a request names, `none` for a pair outside the matrix of R84 or an operand of another width
(R94, R154; DESIGN CHOICE, log entry 18). -/
def Request.instr? (r : Request) : Option Instr :=
  match r.mnemonic, r.mode, r.operand with
  | .lda, .imm, .byte d => some (.ldaImm d)
  | .lda, .zp, .byte d => some (.ldaZp d)
  | .lda, .zpx, .byte d => some (.ldaZpx d)
  | .lda, .abs, .word w => some (.ldaAbs w)
  | .lda, .absx, .word w => some (.ldaAbsx w)
  | .lda, .absy, .word w => some (.ldaAbsy w)
  | .lda, .indx, .byte d => some (.ldaIndx d)
  | .lda, .indy, .byte d => some (.ldaIndy d)
  | .ldx, .imm, .byte d => some (.ldxImm d)
  | .ldx, .zp, .byte d => some (.ldxZp d)
  | .ldx, .zpy, .byte d => some (.ldxZpy d)
  | .ldx, .abs, .word w => some (.ldxAbs w)
  | .ldx, .absy, .word w => some (.ldxAbsy w)
  | .ldy, .imm, .byte d => some (.ldyImm d)
  | .ldy, .zp, .byte d => some (.ldyZp d)
  | .ldy, .zpx, .byte d => some (.ldyZpx d)
  | .ldy, .abs, .word w => some (.ldyAbs w)
  | .ldy, .absx, .word w => some (.ldyAbsx w)
  | .adc, .imm, .byte d => some (.adcImm d)
  | .adc, .zp, .byte d => some (.adcZp d)
  | .adc, .zpx, .byte d => some (.adcZpx d)
  | .adc, .abs, .word w => some (.adcAbs w)
  | .adc, .absx, .word w => some (.adcAbsx w)
  | .adc, .absy, .word w => some (.adcAbsy w)
  | .adc, .indx, .byte d => some (.adcIndx d)
  | .adc, .indy, .byte d => some (.adcIndy d)
  | .and, .imm, .byte d => some (.andImm d)
  | .and, .zp, .byte d => some (.andZp d)
  | .and, .zpx, .byte d => some (.andZpx d)
  | .and, .abs, .word w => some (.andAbs w)
  | .and, .absx, .word w => some (.andAbsx w)
  | .and, .absy, .word w => some (.andAbsy w)
  | .and, .indx, .byte d => some (.andIndx d)
  | .and, .indy, .byte d => some (.andIndy d)
  | .sta, .zp, .byte d => some (.staZp d)
  | .sta, .zpx, .byte d => some (.staZpx d)
  | .sta, .abs, .word w => some (.staAbs w)
  | .sta, .absx, .word w => some (.staAbsx w)
  | .sta, .absy, .word w => some (.staAbsy w)
  | .sta, .indx, .byte d => some (.staIndx d)
  | .sta, .indy, .byte d => some (.staIndy d)
  | _, _, _ => none

/-- The three bytes, first byte lowest, of an instruction whose bits are `w` numbered as spec/opcode_table.json numbers
them; every bit from `nbits` on is 0. Three bytes is the longest instruction (R80). -/
def tableBytes (nbits w : Nat) : List Byte :=
  let bits := w % 2 ^ nbits
  [BitVec.ofNat 8 bits, BitVec.ofNat 8 (bits / 2 ^ 8), BitVec.ofNat 8 (bits / 2 ^ 16)]

/-- The instruction that the decoder reads from a table word. -/
def decodeTableWord (nbits w : Nat) : Option Instr :=
  match decode (tableBytes nbits w) with
  | .ok (i, _) => some i
  | .error _ => none

end Sys2Proof
end

