-- ==== Sys2Proof/Config.lean ====
section
/-! DEFINITION. The implementation parameters of `00_scope.md` R4: the constants of this hardware, the two switches the
spec keeps open to a second reading, and the one OPEN quantity that no rule reads. -/

namespace Sys2Proof.Config

/-- `MEM_SIZE`, R4, R38 (the spec's decision D1; DEDUCED, log entry 11). -/
def memSize : Nat := 65536

/-- `STACK_BASE`, R4, R21. -/
def stackBase : Word := 0x0100#16

/-- `SP_RESET`, R4, R18. -/
def spReset : Byte := 0xFF#8

/-- `PC_RESET`, R4, R11. -/
def pcReset : Word := 0x0000#16

/-- `GR_RESET`, R4, R22 (the spec's decision D15; DEDUCED, log entry 10). -/
def grReset : Byte := 0x00#8

/-- `P_RESET`, R4, R30. -/
def pReset : Byte := 0x00#8

/-- The two readings of what ADC hands to `handle_v_flag` as `carry_in` (R4 `V_CARRY_SRC`, D7). -/
inductive VCarrySrc where
  | cBefore
  | carryOut
  deriving DecidableEq, Repr

/-- `ADC_CARRY_IN`, R4 (the spec's decision D6; DEDUCED, log entry 4). -/
def adcCarryIn : Bool := false

/-- `V_CARRY_SRC`, R4 (the spec's decision D7; DEDUCED, log entry 4). -/
def vCarrySrc : VCarrySrc := .cBefore

/-- `TICK_PERIOD`, R4, R206: OPEN, in any unit of time; no rule and no definition of this model reads it (DEDUCED, log entry 9). -/
opaque tickPeriod : Nat

end Sys2Proof.Config
end

