-- ==== Sys2Proof/Machine/State.lean ====
section
/-! DEFINITION. The state of the engine (`10_state.md` R10, R40), its memory as plain data in one canonical form (R38),
the faults of `60_exceptions.md` R171, and the state right after reset (R41, R191). -/

namespace Sys2Proof.Machine

/-- `MEM`: the listed cells of the 65536 (R38). An address not listed reads as `unlistedByte`. -/
abbrev Memory := List Host.Cell

/-- What a cell that nothing has written reads as: memory is zero-filled at construction and by reset (R38, R39; DEDUCED, log entry 7). -/
def unlistedByte : Byte := 0x00#8

/-- The addresses of the listed cells rise strictly. -/
def Memory.rising : Memory → Bool
  | [] => true
  | [_] => true
  | c :: c' :: rest => decide (c.1 < c'.1) && Memory.rising (c' :: rest)

/-- The canonical form: addresses strictly rising and inside the address space, and no listed cell that holds what an
unlisted one reads as. -/
def Memory.wf (m : Memory) : Bool :=
  m.rising && m.all (fun c => decide (c.1 < Config.memSize) && c.2 != unlistedByte)

/-- The faults of R171, which are the values of the latch `FAULT` besides `None` (R40). `raise` latches one and the step
answers a NEXT state (R172, DEDUCED, log entry 1); no step and no meaning answers `Host.Outcome.fault`. Each is safe: the engine
does nothing more until Reset (R166). -/
inductive Fault where
  /-- Raised by the decode of a step: the byte fetched as opcode is not one of the 41, and the address it was fetched
  from (R173). Safe. -/
  | illegalOpcode (opcode : Byte) (addr : Word)
  /-- Raised by a fetch, or by `PC.increase`, that would carry PC above 0xFFFF, with PC at the start of the step (R174). Safe. -/
  | pcOverflow (addr : Word)
  /-- Raised by `PC.decrease` alone, which no instruction uses (R175). Safe. -/
  | pcUnderflow (addr : Word)
  deriving DecidableEq, Repr

/-- Why the model gives an operation no meaning. -/
inductive Refusal where
  /-- Raised by `exec` for a form with no meaning yet; no form is left in that case. Safe. -/
  | notModelled (mnemonic : String)
  /-- Raised by the host operation Load for more bytes than there are cells, a length R160 does not allow (DESIGN CHOICE, log entry 5). Safe. -/
  | loadTooLong (length : Nat)
  deriving DecidableEq, Repr

/-- The three general registers, `GR[0]`, `GR[1]`, `GR[2]` of R7 and R22. -/
inductive Gr where
  | a
  | x
  | y
  deriving DecidableEq, Repr

/-- The complete architectural state (R10) and the fault latch (R40). -/
@[ext]
structure State where
  /-- Program counter, R11. -/
  pc : Word
  /-- Stack pointer, R18. -/
  sp : Byte
  /-- Accumulator, R22. -/
  a : Byte
  /-- Index register X, R22. -/
  x : Byte
  /-- Index register Y, R22. -/
  y : Byte
  /-- Status register, all 8 bits, R26. -/
  p : Byte
  /-- Memory, R38. -/
  mem : Memory
  /-- Fault latch, R40. -/
  fault : Option Fault
  deriving DecidableEq, Repr

/-- The state after reset, which is also the power-on state (R41, R191, R192). -/
def State.reset : State where
  pc := Config.pcReset
  sp := Config.spReset
  a := Config.grReset
  x := Config.grReset
  y := Config.grReset
  p := Config.pReset
  mem := []
  fault := none

end Sys2Proof.Machine
end

