-- ==== Sys2Proof/Machine/Ops.lean ====
section
/-! DEFINITION. The primitive operations on memory, the program counter, the stack pointer and the general registers
(`10_state.md`, `20_memory.md` section 1), and `raise` (`60_exceptions.md` R172). The hardware has no return from a fault
(R179): the one way out of the latch is the host's Reset, in Machine/HostPort.lean. -/

namespace Sys2Proof.Machine

/-! ### The canonical list that holds memory -/

/-- The byte at an address of the list. -/
def Memory.read : Memory → Nat → Byte
  | [], _ => unlistedByte
  | c :: rest, k => if c.1 = k then c.2 else Memory.read rest k

/-- The list without the cell at an address. -/
def Memory.eraseCell (m : Memory) (k : Nat) : Memory := m.filter (fun c => c.1 != k)

/-- The list with one more cell, before the first cell of a higher address. -/
def Memory.insertCell : Memory → Nat → Byte → Memory
  | [], k, v => [(k, v)]
  | c :: rest, k, v => if k < c.1 then (k, v) :: c :: rest else c :: Memory.insertCell rest k v

/-- The list after a write: the old cell goes, and the new one comes unless it holds what an unlisted cell reads as. -/
def Memory.write (m : Memory) (k : Nat) (v : Byte) : Memory :=
  if v = unlistedByte then m.eraseCell k else (m.eraseCell k).insertCell k v

/-! ### Memory accesses -/

/-- `MemRead(addr, 1)`, R52. -/
def memRead (addr : Word) (s : State) : Byte := s.mem.read addr.toNat

/-- `MemWrite(addr, 1, v)`, R53. -/
def memWrite (addr : Word) (v : Byte) (s : State) : State := { s with mem := s.mem.write addr.toNat v }

/-- `MEM.reset()`, R39: every cell reads 0x00. -/
def memReset (s : State) : State := { s with mem := [] }

/-! ### The fault latch -/

/-- `raise F(info)` of R172, applied to the state in which the step began: nothing changes but the latch. -/
def raiseFault (f : Fault) (s0 : State) : State := { s0 with fault := some f }

/-- The state after an operation that may raise, begun in `s0` (R172; for the primitives that no instruction uses, DEDUCED,
log entry 15). -/
def latchError (s0 : State) : Except Fault State → State
  | .ok s => s
  | .error f => raiseFault f s0

/-! ### Program counter -/

/-- `PC.get()`, R12. -/
def pcGet (s : State) : Word := s.pc

/-- `PC.jump(addr)`, R13. -/
def pcJump (addr : Word) (s : State) : State := { s with pc := addr }

/-- `PC.increase(n)`, R15: the exact sum decides (D2; DEDUCED, log entry 12). -/
def pcIncrease (n : Byte) (s : State) : Except Fault State :=
  if s.pc.toNat + n.toNat > 0xFFFF then .error (.pcOverflow s.pc)
  else .ok { s with pc := BitVec.ofNat 16 (s.pc.toNat + n.toNat) }

/-- `PC.decrease(n)`, R16 (D2; DEDUCED, log entry 12). -/
def pcDecrease (n : Byte) (s : State) : Except Fault State :=
  if n.toNat > s.pc.toNat then .error (.pcUnderflow s.pc)
  else .ok { s with pc := BitVec.ofNat 16 (s.pc.toNat - n.toNat) }

/-- `Fetch8()`, R14. `pc0` is PC at the start of the step, which the fault records (R155, R171; DEDUCED, log entry 2). -/
def fetch8 (pc0 : Word) (s : State) : Except Fault (Byte × State) :=
  if s.pc = 0xFFFF#16 then .error (.pcOverflow pc0)
  else .ok (memRead s.pc s, { s with pc := s.pc + 1#16 })

/-! ### Stack pointer -/

/-- `SP.get()`, R18. -/
def spGet (s : State) : Byte := s.sp

/-- `SP.push()`, R19: the old pointer, zero-extended, and the state with the pointer one lower. -/
def spPush (s : State) : Word × State := (zext16 s.sp, { s with sp := s.sp - 1#8 })

/-- `SP.pop()`, R20: the new pointer, zero-extended, and the state with the pointer one higher. -/
def spPop (s : State) : Word × State := (zext16 (s.sp + 1#8), { s with sp := s.sp + 1#8 })

/-- The stack-page address of a pointer that a push or a pop returned, R21. -/
def stackAddress (v : Word) : Word := Config.stackBase + v

/-! ### General registers -/

/-- `GR[i].get()`, R23. -/
def grGet (g : Gr) (s : State) : Byte :=
  match g with
  | .a => s.a
  | .x => s.x
  | .y => s.y

/-- `GR[i].set(v)`, R23. -/
def grSet (g : Gr) (v : Byte) (s : State) : State :=
  match g with
  | .a => { s with a := v }
  | .x => { s with x := v }
  | .y => { s with y := v }

/-- `GR[i].reset()`, R23. -/
def grReset (g : Gr) (s : State) : State := grSet g Config.grReset s

/-- `GR[i].increment()`, R24. -/
def grIncrement (g : Gr) (s : State) : State := grSet g (grGet g s + 1#8) s

/-- `GR[i].decrement()`, R24. -/
def grDecrement (g : Gr) (s : State) : State := grSet g (grGet g s - 1#8) s

end Sys2Proof.Machine
end

