-- ==== Sys2Proof/Machine/Flags.lean ====
section
/-! DEFINITION. The status register P and its flags (`10_state.md` sections 5 and 6): the primitive operations of R27 and
the four composite helpers of R33 to R37. -/

namespace Sys2Proof.Machine

/-- The seven flags of R26. Bit 5 is no flag (R29). -/
inductive Flag where
  | carry
  | zero
  | interrupt
  | decimal
  | brk
  | overflow
  | negative
  deriving DecidableEq, Repr

/-- The bit of P that a flag is (R26). -/
def flagBit : Flag → Nat
  | .carry => 0
  | .zero => 1
  | .interrupt => 2
  | .decimal => 3
  | .brk => 4
  | .overflow => 6
  | .negative => 7

/-- The mask of a flag (R26). -/
def flagMask (f : Flag) : Byte := 1#8 <<< flagBit f

/-- `set_flag(f)`, R27. -/
def setFlag (f : Flag) (s : State) : State := { s with p := s.p ||| flagMask f }

/-- `clear_flag(f)`, R27. -/
def clearFlag (f : Flag) (s : State) : State := { s with p := s.p &&& ~~~ flagMask f }

/-- `is_flag_set(f)`, R27. -/
def isFlagSet (f : Flag) (s : State) : Bool := s.p.getLsbD (flagBit f)

/-- `P.get_register()`, R27. -/
def pGet (s : State) : Byte := s.p

/-- `P.set(value)`, R27: all 8 bits, bit 5 included. -/
def pSet (v : Byte) (s : State) : State := { s with p := v }

/-- `P.reset()`, R27, R30. -/
def pReset (s : State) : State := pSet Config.pReset s

/-- An assignment to one flag: set or cleared, never left as it was (R37). -/
def putFlag (f : Flag) (b : Bool) (s : State) : State := if b then setFlag f s else clearFlag f s

/-- `handle_c_flag(carry)`, R33. -/
def handleCFlag (carry : Bool) (s : State) : State := putFlag .carry carry s

/-- `handle_z_flag(result)`, R34. -/
def handleZFlag (result : Byte) (s : State) : State := putFlag .zero (result == 0x00#8) s

/-- `handle_n_flag(result)`, R35. -/
def handleNFlag (result : Byte) (s : State) : State := putFlag .negative (result.getLsbD 7) s

/-- `handle_v_flag(value, carry_in)`, R36: an unsigned comparison with a threshold, not signed overflow. -/
def handleVFlag (value : Byte) (carryIn : Bool) (s : State) : State :=
  let threshold : Byte := if carryIn then 0x80#8 else 0x7F#8
  putFlag .overflow (decide (value.toNat > threshold.toNat)) s

end Sys2Proof.Machine
end

