-- ==== Sys2Proof/Machine/Operands.lean ====
section
/-! DEFINITION. The addressing-mode resolver (`20_memory.md` section 2): one effective-address function per memory mode,
and the address and operand byte of a mode with its operand. -/

namespace Sys2Proof.Machine

/-- The little-endian pointer at a zero-page address; its high byte comes from the next zero-page cell, wrapping within
page 0 (R55, R66; R67 by the spec's decision D5; DEDUCED, log entry 11). -/
def zeroPagePointer (ptr : Byte) (s : State) : Word :=
  wordOfBytes (memRead (zext16 ptr) s) (memRead (zext16 (ptr + 1#8)) s)

/-- `EA_zp(d)`, R60. -/
def eaZp (d : Byte) : Word := zext16 d

/-- `EA_zpx(d)`, R61: the sum wraps in page 0 (D4; DEDUCED, log entry 11). -/
def eaZpx (d : Byte) (s : State) : Word := zext16 (d + s.x)

/-- `EA_zpy(d)`, R62: the sum wraps in page 0 (D4; DEDUCED, log entry 11). -/
def eaZpy (d : Byte) (s : State) : Word := zext16 (d + s.y)

/-- `EA_abs(w)`, R63. -/
def eaAbs (w : Word) : Word := w

/-- `EA_absx(w)`, R64: the sum wraps modulo 65536 (D3; DEDUCED, log entry 11). -/
def eaAbsx (w : Word) (s : State) : Word := w + zext16 s.x

/-- `EA_absy(w)`, R65: the sum wraps modulo 65536 (D3; DEDUCED, log entry 11). -/
def eaAbsy (w : Word) (s : State) : Word := w + zext16 s.y

/-- `EA_indx(d)`, R66: X is added to the pointer's address. -/
def eaIndx (d : Byte) (s : State) : Word := zeroPagePointer (d + s.x) s

/-- `EA_indy(d)`, R67: Y is added to the pointer, modulo 65536 (D3; DEDUCED, log entry 11). -/
def eaIndy (d : Byte) (s : State) : Word := zeroPagePointer d s + zext16 s.y

/-- The effective address of a mode with its operand; Immediate has none (R68), and an operand of another width has no
meaning (R154). -/
def effectiveAddress (md : Mode) (x : Operand) (s : State) : Option Word :=
  match md, x with
  | .zp, .byte d => some (eaZp d)
  | .zpx, .byte d => some (eaZpx d s)
  | .zpy, .byte d => some (eaZpy d s)
  | .abs, .word w => some (eaAbs w)
  | .absx, .word w => some (eaAbsx w s)
  | .absy, .word w => some (eaAbsy w s)
  | .indx, .byte d => some (eaIndx d s)
  | .indy, .byte d => some (eaIndy d s)
  | _, _ => none

/-- The address that an instruction stores to: the effective address of STA, none for the reading mnemonics (R69). -/
def storeAddress (i : Instr) (s : State) : Option Word :=
  match i.mnemonic with
  | .sta => effectiveAddress i.mode i.operand s
  | _ => none

/-- The operand byte of a reading instruction: the literal, or the byte at the effective address (R68, R69). -/
def operandByte (i : Instr) (s : State) : Option Byte :=
  match i.mode, i.operand with
  | .imm, .byte d => some d
  | md, x => (effectiveAddress md x s).map (fun ea => memRead ea s)

end Sys2Proof.Machine
end

