-- ==== Sys2Proof/Machine/Adc.lean ====
section
/-! DEFINITION. ADC, 8 forms (`42_adc.md`). -/

namespace Sys2Proof.Machine

/-- `ADC_exec(m)` of R120, for either value of its two parameters: the exact sum first, then its low 8 bits and its
carry-out, then the four helpers in the rule's order. The carry flag is read before any flag is written. -/
def adcWith (carryIn : Bool) (vSrc : Config.VCarrySrc) (m : Byte) (s : State) : State :=
  let cBefore := isFlagSet .carry s
  let cin := if carryIn then cBefore.toNat else 0
  let t := s.a.toNat + m.toNat + cin
  let r := BitVec.ofNat 8 t
  let cout := decide (t > 255)
  let vcin := match vSrc with
    | .cBefore => cBefore
    | .carryOut => cout
  handleVFlag r vcin (handleNFlag r (handleZFlag r (handleCFlag cout (grSet .a r s))))

/-- `ADC_exec(m)` with the values this hardware takes (R4, R120; DEDUCED, log entry 4). -/
def adcExec (m : Byte) (s : State) : State := adcWith Config.adcCarryIn Config.vCarrySrc m s

/-- `ADC #$NN`, R121; operand R68. -/
def execAdcImm (d : Byte) (s : State) : Host.Outcome State Fault Refusal := .next (adcExec d s)

/-- `ADC $NN`, R122; operand R60. -/
def execAdcZp (d : Byte) (s : State) : Host.Outcome State Fault Refusal := .next (adcExec (memRead (eaZp d) s) s)

/-- `ADC $NN,X`, R123; operand R61. -/
def execAdcZpx (d : Byte) (s : State) : Host.Outcome State Fault Refusal := .next (adcExec (memRead (eaZpx d s) s) s)

/-- `ADC $NNNN`, R124; operand R63. -/
def execAdcAbs (w : Word) (s : State) : Host.Outcome State Fault Refusal := .next (adcExec (memRead (eaAbs w) s) s)

/-- `ADC $NNNN,X`, R125; operand R64. -/
def execAdcAbsx (w : Word) (s : State) : Host.Outcome State Fault Refusal := .next (adcExec (memRead (eaAbsx w s) s) s)

/-- `ADC $NNNN,Y`, R126; operand R65. -/
def execAdcAbsy (w : Word) (s : State) : Host.Outcome State Fault Refusal := .next (adcExec (memRead (eaAbsy w s) s) s)

/-- `ADC ($NN,X)`, R127; operand R66. -/
def execAdcIndx (d : Byte) (s : State) : Host.Outcome State Fault Refusal := .next (adcExec (memRead (eaIndx d s) s) s)

/-- `ADC ($NN),Y`, R128; operand R67. -/
def execAdcIndy (d : Byte) (s : State) : Host.Outcome State Fault Refusal := .next (adcExec (memRead (eaIndy d s) s) s)

end Sys2Proof.Machine
end

