-- ==== Sys2Proof/Machine/And.lean ====
section
/-! DEFINITION. AND, 8 forms (`43_and.md`). -/

namespace Sys2Proof.Machine

/-- `AND_exec(m)` of R130. -/
def andExec (m : Byte) (s : State) : State :=
  let r := s.a &&& m
  handleNFlag r (handleZFlag r (grSet .a r s))

/-- `AND #$NN`, R131; operand R68. -/
def execAndImm (d : Byte) (s : State) : Host.Outcome State Fault Refusal := .next (andExec d s)

/-- `AND $NN`, R132; operand R60. -/
def execAndZp (d : Byte) (s : State) : Host.Outcome State Fault Refusal := .next (andExec (memRead (eaZp d) s) s)

/-- `AND $NN,X`, R133; operand R61. -/
def execAndZpx (d : Byte) (s : State) : Host.Outcome State Fault Refusal := .next (andExec (memRead (eaZpx d s) s) s)

/-- `AND $NNNN`, R134; operand R63. -/
def execAndAbs (w : Word) (s : State) : Host.Outcome State Fault Refusal := .next (andExec (memRead (eaAbs w) s) s)

/-- `AND $NNNN,X`, R135; operand R64. -/
def execAndAbsx (w : Word) (s : State) : Host.Outcome State Fault Refusal := .next (andExec (memRead (eaAbsx w s) s) s)

/-- `AND $NNNN,Y`, R136; operand R65. -/
def execAndAbsy (w : Word) (s : State) : Host.Outcome State Fault Refusal := .next (andExec (memRead (eaAbsy w s) s) s)

/-- `AND ($NN,X)`, R137; operand R66. -/
def execAndIndx (d : Byte) (s : State) : Host.Outcome State Fault Refusal := .next (andExec (memRead (eaIndx d s) s) s)

/-- `AND ($NN),Y`, R138; operand R67. -/
def execAndIndy (d : Byte) (s : State) : Host.Outcome State Fault Refusal := .next (andExec (memRead (eaIndy d s) s) s)

end Sys2Proof.Machine
end

