-- ==== Sys2Proof/Machine/Load.lean ====
section
/-! DEFINITION. LDA, LDX and LDY, the 18 load forms (`41_load.md`). -/

namespace Sys2Proof.Machine

/-- `Load` of R100 with the operand byte `m` already resolved: the register, then Z and N from the new value. -/
def loadInto (dst : Gr) (m : Byte) (s : State) : State :=
  handleNFlag m (handleZFlag m (grSet dst m s))

/-- `LDA #$NN`, R101; operand R68. -/
def execLdaImm (d : Byte) (s : State) : Host.Outcome State Fault Refusal := .next (loadInto .a d s)

/-- `LDA $NN`, R102; operand R60. -/
def execLdaZp (d : Byte) (s : State) : Host.Outcome State Fault Refusal := .next (loadInto .a (memRead (eaZp d) s) s)

/-- `LDA $NN,X`, R103; operand R61. -/
def execLdaZpx (d : Byte) (s : State) : Host.Outcome State Fault Refusal := .next (loadInto .a (memRead (eaZpx d s) s) s)

/-- `LDA $NNNN`, R104; operand R63. -/
def execLdaAbs (w : Word) (s : State) : Host.Outcome State Fault Refusal := .next (loadInto .a (memRead (eaAbs w) s) s)

/-- `LDA $NNNN,X`, R105; operand R64. -/
def execLdaAbsx (w : Word) (s : State) : Host.Outcome State Fault Refusal := .next (loadInto .a (memRead (eaAbsx w s) s) s)

/-- `LDA $NNNN,Y`, R106; operand R65. -/
def execLdaAbsy (w : Word) (s : State) : Host.Outcome State Fault Refusal := .next (loadInto .a (memRead (eaAbsy w s) s) s)

/-- `LDA ($NN,X)`, R107; operand R66. -/
def execLdaIndx (d : Byte) (s : State) : Host.Outcome State Fault Refusal := .next (loadInto .a (memRead (eaIndx d s) s) s)

/-- `LDA ($NN),Y`, R108; operand R67. -/
def execLdaIndy (d : Byte) (s : State) : Host.Outcome State Fault Refusal := .next (loadInto .a (memRead (eaIndy d s) s) s)

/-- `LDX #$NN`, R109; operand R68. -/
def execLdxImm (d : Byte) (s : State) : Host.Outcome State Fault Refusal := .next (loadInto .x d s)

/-- `LDX $NN`, R110; operand R60. -/
def execLdxZp (d : Byte) (s : State) : Host.Outcome State Fault Refusal := .next (loadInto .x (memRead (eaZp d) s) s)

/-- `LDX $NN,Y`, R111; operand R62. -/
def execLdxZpy (d : Byte) (s : State) : Host.Outcome State Fault Refusal := .next (loadInto .x (memRead (eaZpy d s) s) s)

/-- `LDX $NNNN`, R112; operand R63. -/
def execLdxAbs (w : Word) (s : State) : Host.Outcome State Fault Refusal := .next (loadInto .x (memRead (eaAbs w) s) s)

/-- `LDX $NNNN,Y`, R113; operand R65. -/
def execLdxAbsy (w : Word) (s : State) : Host.Outcome State Fault Refusal := .next (loadInto .x (memRead (eaAbsy w s) s) s)

/-- `LDY #$NN`, R114; operand R68. -/
def execLdyImm (d : Byte) (s : State) : Host.Outcome State Fault Refusal := .next (loadInto .y d s)

/-- `LDY $NN`, R115; operand R60. -/
def execLdyZp (d : Byte) (s : State) : Host.Outcome State Fault Refusal := .next (loadInto .y (memRead (eaZp d) s) s)

/-- `LDY $NN,X`, R116; operand R61. -/
def execLdyZpx (d : Byte) (s : State) : Host.Outcome State Fault Refusal := .next (loadInto .y (memRead (eaZpx d s) s) s)

/-- `LDY $NNNN`, R117; operand R63. -/
def execLdyAbs (w : Word) (s : State) : Host.Outcome State Fault Refusal := .next (loadInto .y (memRead (eaAbs w) s) s)

/-- `LDY $NNNN,X`, R118; operand R64. -/
def execLdyAbsx (w : Word) (s : State) : Host.Outcome State Fault Refusal := .next (loadInto .y (memRead (eaAbsx w s) s) s)

end Sys2Proof.Machine
end

