-- ==== Sys2Proof/Machine/Store.lean ====
section
/-! DEFINITION. STA, 7 forms (`44_store.md`). -/

namespace Sys2Proof.Machine

/-- `STA_exec` of R140 with the effective address already resolved: no data read, no flag. -/
def staExec (ea : Word) (s : State) : State := memWrite ea s.a s

/-- `STA $NN`, R141; operand R60. -/
def execStaZp (d : Byte) (s : State) : Host.Outcome State Fault Refusal := .next (staExec (eaZp d) s)

/-- `STA $NN,X`, R142; operand R61. -/
def execStaZpx (d : Byte) (s : State) : Host.Outcome State Fault Refusal := .next (staExec (eaZpx d s) s)

/-- `STA $NNNN`, R143; operand R63. -/
def execStaAbs (w : Word) (s : State) : Host.Outcome State Fault Refusal := .next (staExec (eaAbs w) s)

/-- `STA $NNNN,X`, R144; operand R64. -/
def execStaAbsx (w : Word) (s : State) : Host.Outcome State Fault Refusal := .next (staExec (eaAbsx w s) s)

/-- `STA $NNNN,Y`, R145; operand R65. -/
def execStaAbsy (w : Word) (s : State) : Host.Outcome State Fault Refusal := .next (staExec (eaAbsy w s) s)

/-- `STA ($NN,X)`, R146; operand R66. -/
def execStaIndx (d : Byte) (s : State) : Host.Outcome State Fault Refusal := .next (staExec (eaIndx d s) s)

/-- `STA ($NN),Y`, R147; operand R67. -/
def execStaIndy (d : Byte) (s : State) : Host.Outcome State Fault Refusal := .next (staExec (eaIndy d s) s)

end Sys2Proof.Machine
end

