-- ==== Sys2Proof/Machine/Dispatch.lean ====
section
/-! DEFINITION. The execute part of a step: one arm per form, each a direct call of the form's meaning
(`50_execution.md` R155, R152). -/

namespace Sys2Proof.Machine

def exec (i : Instr) (s : State) : Host.Outcome State Fault Refusal :=
  match i with
  | .ldaImm d => Sys2Proof.Machine.execLdaImm d s
  | .ldaZp d => Sys2Proof.Machine.execLdaZp d s
  | .ldaZpx d => Sys2Proof.Machine.execLdaZpx d s
  | .ldaAbs w => Sys2Proof.Machine.execLdaAbs w s
  | .ldaAbsx w => Sys2Proof.Machine.execLdaAbsx w s
  | .ldaAbsy w => Sys2Proof.Machine.execLdaAbsy w s
  | .ldaIndx d => Sys2Proof.Machine.execLdaIndx d s
  | .ldaIndy d => Sys2Proof.Machine.execLdaIndy d s
  | .ldxImm d => Sys2Proof.Machine.execLdxImm d s
  | .ldxZp d => Sys2Proof.Machine.execLdxZp d s
  | .ldxZpy d => Sys2Proof.Machine.execLdxZpy d s
  | .ldxAbs w => Sys2Proof.Machine.execLdxAbs w s
  | .ldxAbsy w => Sys2Proof.Machine.execLdxAbsy w s
  | .ldyImm d => Sys2Proof.Machine.execLdyImm d s
  | .ldyZp d => Sys2Proof.Machine.execLdyZp d s
  | .ldyZpx d => Sys2Proof.Machine.execLdyZpx d s
  | .ldyAbs w => Sys2Proof.Machine.execLdyAbs w s
  | .ldyAbsx w => Sys2Proof.Machine.execLdyAbsx w s
  | .adcImm d => Sys2Proof.Machine.execAdcImm d s
  | .adcZp d => Sys2Proof.Machine.execAdcZp d s
  | .adcZpx d => Sys2Proof.Machine.execAdcZpx d s
  | .adcAbs w => Sys2Proof.Machine.execAdcAbs w s
  | .adcAbsx w => Sys2Proof.Machine.execAdcAbsx w s
  | .adcAbsy w => Sys2Proof.Machine.execAdcAbsy w s
  | .adcIndx d => Sys2Proof.Machine.execAdcIndx d s
  | .adcIndy d => Sys2Proof.Machine.execAdcIndy d s
  | .andImm d => Sys2Proof.Machine.execAndImm d s
  | .andZp d => Sys2Proof.Machine.execAndZp d s
  | .andZpx d => Sys2Proof.Machine.execAndZpx d s
  | .andAbs w => Sys2Proof.Machine.execAndAbs w s
  | .andAbsx w => Sys2Proof.Machine.execAndAbsx w s
  | .andAbsy w => Sys2Proof.Machine.execAndAbsy w s
  | .andIndx d => Sys2Proof.Machine.execAndIndx d s
  | .andIndy d => Sys2Proof.Machine.execAndIndy d s
  | .staZp d => Sys2Proof.Machine.execStaZp d s
  | .staZpx d => Sys2Proof.Machine.execStaZpx d s
  | .staAbs w => Sys2Proof.Machine.execStaAbs w s
  | .staAbsx w => Sys2Proof.Machine.execStaAbsx w s
  | .staAbsy w => Sys2Proof.Machine.execStaAbsy w s
  | .staIndx d => Sys2Proof.Machine.execStaIndx d s
  | .staIndy d => Sys2Proof.Machine.execStaIndy d s

end Sys2Proof.Machine
end

