-- ==== Sys2Proof/Machine/Fetch.lean ====
section
/-! DEFINITION. The fetch part of a step (`50_execution.md` R155): the opcode byte, its decode, the operand bytes, each by
`Fetch8`, in that order (`60_exceptions.md` R176); and the placing of an instruction where the next step fetches. -/

namespace Sys2Proof.Machine

/-- The operand bytes of a form, fetched one by one, low byte first (R155, R83; one memory for code and
data is the spec's D12; DEDUCED, log entry 13). -/
def fetchOperand (pc0 : Word) (form : OpcodeForm) (s : State) : Except Fault (Instr × State) :=
  match form with
  | .op8 build =>
    match fetch8 pc0 s with
    | .error f => .error f
    | .ok (d, s1) => .ok (build d, s1)
  | .op16 build =>
    match fetch8 pc0 s with
    | .error f => .error f
    | .ok (wl, s1) =>
      match fetch8 pc0 s1 with
      | .error f => .error f
      | .ok (wh, s2) => .ok (build (wordOfBytes wl wh), s2)

/-- The fetch of one instruction: the instruction and the state with PC past its last byte, or the fault that the step
raises (R155, R156, R176). -/
def fetchInstr (s : State) : Except Fault (Instr × State) :=
  match fetch8 s.pc s with
  | .error f => .error f
  | .ok (b, s1) =>
    match decodeOpcode b with
    | none => .error (.illegalOpcode b s.pc)
    | some form => fetchOperand s.pc form s1

/-- `MEM[base +16 i] <- bytes[i]` for every i, the effect of Load (R160). -/
def storeBytes (base : Word) : List Byte → State → State
  | [], s => s
  | b :: rest, s => storeBytes (base + 1#16) rest (memWrite base b s)

/-- The three bytes at PC and after it, all that a fetch can read (R80). -/
def fetchWindow (s : State) : List Byte :=
  [memRead s.pc s, memRead (s.pc + 1#16) s, memRead (s.pc + 2#16) s]

/-- A state ready to fetch a longest instruction: no fault latched, and PC kept unless a 3-byte fetch from it would
overflow, in which case it is the reset value (R156, R166; DESIGN CHOICE, log entry 6). -/
def readyToFetch (s : State) : State :=
  { s with fault := none, pc := if s.pc.toNat ≤ 0xFFFC then s.pc else Config.pcReset }

/-- The bytes of a table word stored where the next step fetches its instruction (DESIGN CHOICE, log entry 6). -/
def placeTableWord (s : State) (nbits w : Nat) : State :=
  storeBytes (readyToFetch s).pc (tableBytes nbits w) (readyToFetch s)

end Sys2Proof.Machine
end

