-- ==== Sys2Proof/Machine/Cycle.lean ====
section
/-! DEFINITION. One fetch-decode-execute cycle (`50_execution.md` R155). -/

namespace Sys2Proof.Machine

/-- `Step()` of R155: nothing while FAULT is set (R166; DEDUCED, log entry 8); else fetch and
execute, or raise the fetch's fault in the state the step began in (R172). -/
def cycle (s : State) : Host.Outcome State Fault Refusal :=
  match s.fault with
  | some _ => .next s
  | none =>
    match fetchInstr s with
    | .ok (i, s1) => exec i s1
    | .error f => .next (raiseFault f s)

end Sys2Proof.Machine
end

