-- ==== Sys2Proof/Machine/Step.lean ====
section
/-! DEFINITION. The step function, which is one consumed tick (`50_execution.md` R155, R157), and the placing of an
instruction where it fetches. -/

namespace Sys2Proof.Machine

/-- One consumed tick: one `Step()` (R155). -/
def step (s : State) : Host.Outcome State Fault Refusal := cycle s

/-- `s` with the instruction of a table word stored where `step` fetches next (DESIGN CHOICE, log entry 6). -/
def State.withFetchWord (s : State) (nbits w : Nat) : State := placeTableWord s nbits w

end Sys2Proof.Machine
end

