-- ==== Sys2Proof/Machine/HostPort.lean ====
section
/-! DEFINITION. The host interface (`50_execution.md` section 4): the host's operations as steps of the one sequence, the
read-back, and a run as a list of operations (R165). -/

namespace Sys2Proof.Machine

/-- The host operations that change state (R151, R159 to R161). -/
inductive HostOp where
  /-- `Reset`, R159. -/
  | reset
  /-- `Load(base, bytes)`, R160. -/
  | load (base : Word) (bytes : List Byte)
  /-- `Jump(addr)`, R161. -/
  | jump (addr : Word)
  /-- `Invoke(form, operand)`, R152. -/
  | invoke (r : Request)
  /-- `Tick`, R155. -/
  | tick
  deriving DecidableEq, Repr

/-- `Reset()` of R191: every component's own reset, and the latch (D16; DEDUCED, log entry 14). -/
def resetEngine (s : State) : State :=
  { memReset (pReset (grReset .y (grReset .x (grReset .a s)))) with
    pc := Config.pcReset, sp := Config.spReset, fault := none }

/-- The effect of an operation that a faulted engine ignores (R166). -/
def unlessFaulted (s : State) (effect : Host.Outcome State Fault Refusal) : Host.Outcome State Fault Refusal :=
  match s.fault with
  | some _ => .next s
  | none => effect

/-- `Load(base, bytes)`, R160: `len` at most 65536 (DESIGN CHOICE, log entry 5). -/
def loadBytes (base : Word) (bytes : List Byte) (s : State) : Host.Outcome State Fault Refusal :=
  if bytes.length ≤ Config.memSize then .next (storeBytes base bytes s)
  else .refused (.loadTooLong bytes.length)

/-- `Invoke(form, operand)`, R152: the execute part alone, PC untouched (R153); a pair that is no form is refused at the
boundary, with no state change (R154; DEDUCED, log entry 14). -/
def invoke (r : Request) (s : State) : Host.Outcome State Fault Refusal :=
  match r.instr? with
  | some i => exec i s
  | none => .next s

/-- One host operation, one atomic step of the single sequence (R74, R151). -/
def perform (op : HostOp) (s : State) : Host.Outcome State Fault Refusal :=
  match op with
  | .reset => .next (resetEngine s)
  | .load base bytes => unlessFaulted s (loadBytes base bytes s)
  | .jump addr => unlessFaulted s (.next (pcJump addr s))
  | .invoke r => unlessFaulted s (invoke r s)
  | .tick => step s

/-- A run: a finite list of host operations; its result is the state after the last (R165). -/
def runOps : List HostOp → State → Host.Outcome State Fault Refusal
  | [], s => .next s
  | op :: rest, s =>
    match perform op s with
    | .next s' => runOps rest s'
    | .fault f => .fault f
    | .refused r => .refused r

/-- The registers and the latch as the host reads them (R162); a memory cell is read by `memRead`. -/
structure ReadBack where
  a : Byte
  x : Byte
  y : Byte
  sp : Byte
  pc : Word
  p : Byte
  fault : Option Fault
  deriving DecidableEq, Repr

/-- Read-back, with no side effect (R162). -/
def readBack (s : State) : ReadBack :=
  { a := grGet .a s, x := grGet .x s, y := grGet .y s, sp := spGet s, pc := pcGet s, p := pGet s, fault := s.fault }

/-- The flag dump of R163: seven names with their values, bit 5 not among them (DESIGN CHOICE, log entry 17). -/
def flagDump (s : State) : List (String × Bool) :=
  [("Carry", isFlagSet .carry s), ("Zero", isFlagSet .zero s), ("Interrupt", isFlagSet .interrupt s),
   ("Decimal", isFlagSet .decimal s), ("Break", isFlagSet .brk s), ("Overflow", isFlagSet .overflow s),
   ("Negative", isFlagSet .negative s)]

end Sys2Proof.Machine
end

