-- ==== Sys2Proof/Safety.lean ====
section
/-! DEFINITION. What the claims are stated in: the invariant of the machine, and the relations between two states that
the noninterference claims compare. -/

namespace Sys2Proof.Machine

/-- What a latched fault says is true of the state it is latched in, since a raise leaves that state as it was
(`60_exceptions.md` R171, R172). -/
abbrev FaultCoherent (s : State) : Prop :=
  match s.fault with
  | none => True
  | some (.illegalOpcode b addr) =>
      addr = s.pc ∧ s.pc ≠ 0xFFFF#16 ∧ memRead s.pc s = b ∧ (decodeOpcode b).isNone = true
  | some (.pcOverflow addr) => addr = s.pc ∧ 0xFFFD ≤ s.pc.toNat
  | some (.pcUnderflow _) => False

/-- The invariant: memory in its canonical form, the stack pointer at its reset value (R18), the bits of P that nothing
writes at 0 (R28, R29), and a latched fault that says what is true. -/
abbrev EngineInv (s : State) : Prop :=
  s.mem.wf = true ∧ s.sp = Config.spReset ∧ s.p &&& 0x3C#8 = 0x00#8 ∧ FaultCoherent s

/-- Two states that differ at most in SP and in the bits I, D, B and 5 of P (R18, R28, R29). -/
abbrev SameButUnused (s t : State) : Prop :=
  s.pc = t.pc ∧ s.a = t.a ∧ s.x = t.x ∧ s.y = t.y ∧ s.mem = t.mem ∧ s.fault = t.fault ∧ s.p &&& 0xC3#8 = t.p &&& 0xC3#8

/-- Two states that differ at most in P (R32). -/
abbrev SameButFlags (s t : State) : Prop :=
  s.pc = t.pc ∧ s.sp = t.sp ∧ s.a = t.a ∧ s.x = t.x ∧ s.y = t.y ∧ s.mem = t.mem ∧ s.fault = t.fault

end Sys2Proof.Machine
end

