-- ==== Sys2Proof/Certificates/Slice0/Obligations.lean ====
section
/-! DEFINITION. The statements for the provers, from the numbered rules of spec/. The reference formulas at the head are
written from the rules' closed forms, by masks and natural-number arithmetic, and call none of the model's flag or
arithmetic operations. -/

open Sys2Proof Sys2Proof.Machine

namespace Sys2Proof.Reference

/-- P after Z and N are recomputed from `r` and every other bit is kept (R31, R34, R35). -/
def zn (p r : Byte) : Byte := (p &&& 0x7D#8) ||| (if r = 0#8 then 0x02#8 else 0#8) ||| (r &&& 0x80#8)

/-- The sum of R120 in its closed form, `(A + m) mod 256`. -/
def sum (s : State) (m : Byte) : Byte := BitVec.ofNat 8 ((s.a.toNat + m.toNat) % 256)

/-- V of R120 in its closed form: `r[7]`, except 0 when `r` is 0x80 and C was 1 before. -/
def overflow (s : State) (r : Byte) : Bool := r.getLsbD 7 && !(r == 0x80#8 && s.p.getLsbD 0)

/-- The state after ADC of `m` (R120). -/
def afterAdc (m : Byte) (s : State) : State :=
  { s with
    a := sum s m
    p := (zn s.p (sum s m) &&& 0xBE#8) ||| (if s.a.toNat + m.toNat > 255 then 0x01#8 else 0#8)
      ||| (if overflow s (sum s m) then 0x40#8 else 0#8) }

/-- The state after AND of `m` (R130). -/
def afterAnd (m : Byte) (s : State) : State := { s with a := s.a &&& m, p := zn s.p (s.a &&& m) }

/-- The state after LDA, LDX or LDY of `m` (R100). -/
def afterLda (m : Byte) (s : State) : State := { s with a := m, p := zn s.p m }

def afterLdx (m : Byte) (s : State) : State := { s with x := m, p := zn s.p m }

def afterLdy (m : Byte) (s : State) : State := { s with y := m, p := zn s.p m }

/-- `i` completes in `s` with A stored at `ea`, and nothing else changed (R140). -/
def StoresAAt (i : Instr) (s : State) (ea : Word) : Prop :=
  ∃ t, exec i s = .next t ∧ t = { s with mem := t.mem } ∧
    ∀ b, memRead b t = if b = ea then s.a else memRead b s

/-- PC in the two drive modes, for the forms of one mnemonic: a direct operation does not touch it; a step that fetches
the form completes with PC past it (last part of R100, R120, R130 and R140). -/
def PcRule (mn : Mnemonic) : Prop :=
  ∀ i s, i.mnemonic = mn → s.fault = none →
    (∃ t, perform (.invoke i.request) s = .next t ∧ t.pc = s.pc) ∧
    ∀ s1, fetchInstr s = .ok (i, s1) → ∃ t, step s = .next t ∧ t.pc.toNat = s.pc.toNat + i.length

/-- The 41 legal opcode bytes in numeric order, as R88 lists them. -/
def legalOpcodes : List Nat :=
  [0x21, 0x25, 0x29, 0x2D, 0x31, 0x35, 0x39, 0x3D] ++ [0x61, 0x65, 0x69, 0x6D, 0x71, 0x75, 0x79, 0x7D] ++
  [0x81, 0x85, 0x8D, 0x91, 0x95, 0x99, 0x9D] ++ [0xA0, 0xA4, 0xAC, 0xB4, 0xBC] ++
  [0xA1, 0xA5, 0xA9, 0xAD, 0xB1, 0xB5, 0xB9, 0xBD] ++ [0xA2, 0xA6, 0xAE, 0xB6, 0xBE]

end Sys2Proof.Reference

open Sys2Proof.Reference

/-! ### Reset -/

/-- `70_reset_and_hazards.md` section 1: Reset from any state gives the state of the reset table, and a second Reset
changes nothing. That one Reset covers every component, A, X and Y at 0x00 and the latch are the spec's own decisions
D14, D15, D16 (log entries 1, 10 and 14). -/
def Obligations.ResetFromAnyStateGivesTheResetTable : Prop :=
  (∀ s, perform .reset s = .next State.reset) ∧
  State.reset.pc = 0x0000#16 ∧ State.reset.sp = 0xFF#8 ∧ State.reset.a = 0#8 ∧ State.reset.x = 0#8 ∧
  State.reset.y = 0#8 ∧ State.reset.p = 0#8 ∧ (∀ a, memRead a State.reset = 0#8) ∧ State.reset.fault = none

/-- `10_state.md` sections 5 and 7: `P.reset()` clears all bits and `MEM.reset()` zero-fills the entire array, each
touching nothing else, and engine reset does both. That one engine Reset covers P and memory is the spec's own decision
D16 (log entry 14). -/
def Obligations.ResetClearsStatusAndErasesMemory : Prop :=
  ∀ s, pReset s = { s with p := 0x00#8 } ∧
    (∀ a, memRead a (memReset s) = 0x00#8) ∧ memReset s = { s with mem := (memReset s).mem } ∧
    ∃ t, perform .reset s = .next t ∧ (∀ k, t.p.getLsbD k = false) ∧ ∀ a, memRead a t = 0x00#8

/-- `70_reset_and_hazards.md`, entry point: from any state, a Reset and one Tick with no program loaded raise
IllegalOpcode(0x00, 0x0000), and everything else is as reset leaves it (the spec's own inference from R191 and R90; its
decisions D13, D14 and D16, log entries 1, 12 and 14). -/
def Obligations.FirstTickAfterResetRaisesIllegalOpcode : Prop :=
  ∀ s, runOps [.reset, .tick] s =
    .next { State.reset with fault := some (.illegalOpcode 0x00#8 0x0000#16) }

/-! ### Registers and their primitives -/

/-- `10_state.md` section 2: `increase` and `decrease` move PC by the exact amount or raise, without wrap; `jump` sets it;
nothing else changes (the fault policy is the spec's own decision D2, log entry 12). -/
def Obligations.ProgramCounterMovesExactlyOrRaises : Prop :=
  (∀ s n, s.pc.toNat + n.toNat ≤ 0xFFFF →
    ∃ t, pcIncrease n s = .ok t ∧ t = { s with pc := t.pc } ∧ t.pc.toNat = s.pc.toNat + n.toNat) ∧
  (∀ s n, 0xFFFF < s.pc.toNat + n.toNat → pcIncrease n s = .error (.pcOverflow s.pc)) ∧
  (∀ s n, n.toNat ≤ s.pc.toNat →
    ∃ t, pcDecrease n s = .ok t ∧ t = { s with pc := t.pc } ∧ t.pc.toNat + n.toNat = s.pc.toNat) ∧
  (∀ s n, s.pc.toNat < n.toNat → pcDecrease n s = .error (.pcUnderflow s.pc)) ∧
  ∀ s addr, pcJump addr s = { s with pc := addr }

/-- `10_state.md` section 2, `Fetch8`: at 0xFFFF it raises and reads nothing; elsewhere it returns the byte at PC and
advances PC by exactly 1 (the spec's own decisions D2 and D12, log entries 12 and 13; the recorded address is log
entry 2). -/
def Obligations.FetchReadsTheByteAtPcAndAdvances : Prop :=
  ∀ s pc0, (s.pc = 0xFFFF#16 → fetch8 pc0 s = .error (.pcOverflow pc0)) ∧
    (s.pc ≠ 0xFFFF#16 → ∃ t, fetch8 pc0 s = .ok (memRead s.pc s, t) ∧
      t = { s with pc := t.pc } ∧ t.pc.toNat = s.pc.toNat + 1)

/-- R19 and R20: push returns the current pointer and then decrements with wrap, pop increments with wrap and returns the
new pointer, both zero-extended to 16 bits; pop after push returns the same value and restores the pointer. -/
def Obligations.StackPointerPushAndPop : Prop :=
  ∀ s,
    ((spPush s).1.toNat = s.sp.toNat ∧ (spPush s).2 = { s with sp := (spPush s).2.sp } ∧
      (spPush s).2.sp.toNat = (s.sp.toNat + 255) % 256) ∧
    ((spPop s).1.toNat = (s.sp.toNat + 1) % 256 ∧ (spPop s).2 = { s with sp := (spPop s).2.sp } ∧
      (spPop s).2.sp.toNat = (s.sp.toNat + 1) % 256) ∧
    (spPop (spPush s).2).1 = (spPush s).1 ∧ (spPop (spPush s).2).2 = s

/-- R21: the slot a push writes is at 0x0100 + SP.push() and the one a pull reads at 0x0100 + SP.pop(), both in 0x0100 to
0x01FF. No instruction transfers a byte. -/
def Obligations.StackSlotsLieInTheStackPage : Prop :=
  ∀ s, (stackAddress (spPush s).1).toNat = 0x0100 + s.sp.toNat ∧
    (stackAddress (spPop s).1).toNat = 0x0100 + (s.sp.toNat + 1) % 256 ∧
    0x0100 ≤ (stackAddress (spPush s).1).toNat ∧ (stackAddress (spPush s).1).toNat ≤ 0x01FF ∧
    0x0100 ≤ (stackAddress (spPop s).1).toNat ∧ (stackAddress (spPop s).1).toNat ≤ 0x01FF

/-- R23 and R24: get, set, reset, increment and decrement of each general register, 8-bit-wrapping; none touches P, another
register or memory. -/
def Obligations.GeneralRegisterPrimitives : Prop :=
  (∀ s v, grSet .a v s = { s with a := v } ∧ grSet .x v s = { s with x := v } ∧ grSet .y v s = { s with y := v }) ∧
  (∀ s, grGet .a s = s.a ∧ grGet .x s = s.x ∧ grGet .y s = s.y) ∧
  ∀ g s, grReset g s = grSet g 0x00#8 s ∧
    (∃ v, grIncrement g s = grSet g v s ∧ v.toNat = ((grGet g s).toNat + 1) % 256) ∧
    ∃ v, grDecrement g s = grSet g v s ∧ v.toNat = ((grGet g s).toNat + 255) % 256

/-- `10_state.md` section 5: the flags are the bits of the table, `set_flag` and `clear_flag` change exactly that bit, and
`is_flag_set` reads it. -/
def Obligations.FlagPrimitivesChangeExactlyOneBit : Prop :=
  ([Flag.carry, .zero, .interrupt, .decimal, .brk, .overflow, .negative].map flagBit = [0, 1, 2, 3, 4, 6, 7]) ∧
  ∀ f s, isFlagSet f s = s.p.getLsbD (flagBit f) ∧
    setFlag f s = { s with p := (setFlag f s).p } ∧ clearFlag f s = { s with p := (clearFlag f s).p } ∧
    (∀ k, (setFlag f s).p.getLsbD k = if k = flagBit f then true else s.p.getLsbD k) ∧
    ∀ k, (clearFlag f s).p.getLsbD k = if k = flagBit f then false else s.p.getLsbD k

/-- R33, R34, R35 and R37: each helper assigns its one flag a value computed from its arguments alone, set or cleared
whatever it held, and leaves every other bit of P and all other state; any two of them can change places, so the order in
which an instruction calls them does not matter. -/
def Obligations.FlagHelpersAreTotalAssignments : Prop :=
  (∀ c s, handleCFlag c s = { s with p := (handleCFlag c s).p } ∧
    ∀ k, (handleCFlag c s).p.getLsbD k = if k = 0 then c else s.p.getLsbD k) ∧
  (∀ r s, handleZFlag r s = { s with p := (handleZFlag r s).p } ∧
    ∀ k, (handleZFlag r s).p.getLsbD k = if k = 1 then decide (r.toNat = 0) else s.p.getLsbD k) ∧
  (∀ r s, handleNFlag r s = { s with p := (handleNFlag r s).p } ∧
    ∀ k, (handleNFlag r s).p.getLsbD k = if k = 7 then decide (128 ≤ r.toNat) else s.p.getLsbD k) ∧
  (∀ v c s, handleVFlag v c s = { s with p := (handleVFlag v c s).p } ∧
    ∀ k, (handleVFlag v c s).p.getLsbD k =
      if k = 6 then decide (v.toNat > if c then 0x80 else 0x7F) else s.p.getLsbD k) ∧
  ∀ c z n v w s,
    handleCFlag c (handleZFlag z s) = handleZFlag z (handleCFlag c s) ∧
    handleCFlag c (handleNFlag n s) = handleNFlag n (handleCFlag c s) ∧
    handleCFlag c (handleVFlag v w s) = handleVFlag v w (handleCFlag c s) ∧
    handleZFlag z (handleNFlag n s) = handleNFlag n (handleZFlag z s) ∧
    handleZFlag z (handleVFlag v w s) = handleVFlag v w (handleZFlag z s) ∧
    handleNFlag n (handleVFlag v w s) = handleVFlag v w (handleNFlag n s)

/-- R36: V is set iff the value is above 0x7F without an incoming carry and above 0x80 with one; the two cases differ only
at 0x80; no other bit and no other state changes. -/
def Obligations.OverflowFlagFollowsTheThreshold : Prop :=
  ∀ (v : Byte) (c : Bool) (s : State),
    handleVFlag v c s = { s with p := (handleVFlag v c s).p } ∧
    (∀ k, k ≠ 6 → (handleVFlag v c s).p.getLsbD k = s.p.getLsbD k) ∧
    (isFlagSet .overflow (handleVFlag v c s) = true ↔ (if c then 0x80 else 0x7F) < v.toNat) ∧
    isFlagSet .overflow (handleVFlag v false s) = v.getLsbD 7 ∧
    (v ≠ 0x80#8 → isFlagSet .overflow (handleVFlag v true s) = isFlagSet .overflow (handleVFlag v false s)) ∧
    isFlagSet .overflow (handleVFlag 0x80#8 true s) = false

/-! ### Memory and addressing modes -/

/-- `20_memory.md` section 1: a write changes exactly one cell and nothing else, and a read returns the most recent write. -/
def Obligations.WriteChangesExactlyOneCell : Prop :=
  ∀ s addr v, memWrite addr v s = { s with mem := (memWrite addr v s).mem } ∧
    ∀ b, memRead b (memWrite addr v s) = if b = addr then v else memRead b s

/-- Two memories in canonical form that read alike at every address are the same data (the model's own representation of
`MEM`, log entry 7). -/
def Obligations.CanonicalMemoriesThatReadAlikeAreEqual : Prop :=
  ∀ m m' : Memory, m.wf = true → m'.wf = true →
    (∀ a : Word, Memory.read m a.toNat = Memory.read m' a.toNat) → m = m'

/-- `20_memory.md` section 2, the zero-page modes: the address is in page 0, the index is added modulo 256 (the wrap is the
spec's own decision D4, log entry 11). -/
def Obligations.ZeroPageModesStayInPageZero : Prop :=
  ∀ d s, (eaZp d).toNat = d.toNat ∧ (eaZpx d s).toNat = (d.toNat + s.x.toNat) % 256 ∧
    (eaZpy d s).toNat = (d.toNat + s.y.toNat) % 256

/-- `20_memory.md` section 2, the absolute modes: the index, unsigned, is added modulo 65536 (the spec's own
decision D3, log entry 11). -/
def Obligations.AbsoluteModesWrapAtTheTop : Prop :=
  ∀ w s, eaAbs w = w ∧ (eaAbsx w s).toNat = (w.toNat + s.x.toNat) % 65536 ∧
    (eaAbsy w s).toNat = (w.toNat + s.y.toNat) % 65536

/-- R66: the pointer is at (d + X) mod 256, its high byte comes from the following zero-page cell with wrap, low byte
first; Y plays no part. -/
def Obligations.PreIndexedPointerIsReadInPageZero : Prop :=
  ∀ d s, (eaIndx d s).toNat =
    (memRead (BitVec.ofNat 16 ((d.toNat + s.x.toNat + 1) % 256)) s).toNat * 256 +
      (memRead (BitVec.ofNat 16 ((d.toNat + s.x.toNat) % 256)) s).toNat

/-- `20_memory.md` section 2, the post-indexed mode: the pointer is at d, its high byte at (d + 1) mod 256 (the spec's own
decision D5), and Y is added to it modulo 65536 (D3); X plays no part. Log entry 11. -/
def Obligations.PostIndexedAddsYToThePointer : Prop :=
  ∀ d s, (eaIndy d s).toNat =
    ((memRead (BitVec.ofNat 16 ((d.toNat + 1) % 256)) s).toNat * 256 +
      (memRead (BitVec.ofNat 16 d.toNat) s).toNat + s.y.toNat) % 65536

/-! ### Encoding -/

/-- `30_encoding.md` sections 3 and 4: exactly the 41 listed bytes decode, the other 215 are illegal (the bytes are the
spec's own decision D10, general knowledge G1; log entry 3). -/
def Obligations.ExactlyTheListedOpcodesAreLegal : Prop :=
  legalOpcodes.length = 41 ∧ legalOpcodes.Nodup ∧
    ∀ b : Byte, (decodeOpcode b).isSome = decide (b.toNat ∈ legalOpcodes)

/-- Words written out from the encodings of `30_encoding.md` sections 1 to 3, one of each family and of each mode, decode to
the instruction they stand for (the bytes are the spec's own decision D10; log entry 3). -/
def Obligations.WrittenOutWordsDecode : Prop :=
  decode [0b10101001#8, 0x80#8] = .ok (.ldaImm 0x80#8, []) ∧
  decode [0b10110110#8, 0xFF#8] = .ok (.ldxZpy 0xFF#8, []) ∧
  decode [0b10111100#8, 0x01#8, 0x20#8] = .ok (.ldyAbsx 0x2001#16, []) ∧
  decode [0b01111001#8, 0xF0#8, 0xFF#8] = .ok (.adcAbsy 0xFFF0#16, []) ∧
  decode [0b00110001#8, 0x40#8] = .ok (.andIndy 0x40#8, []) ∧
  decode [0b10000001#8, 0x88#8] = .ok (.staIndx 0x88#8, []) ∧
  decode [0b10001101#8, 0x34#8, 0x12#8] = .ok (.staAbs 0x1234#16, []) ∧
  decode [0b00110101#8, 0xFF#8] = .ok (.andZpx 0xFF#8, []) ∧
  decode [0b01100101#8, 0x10#8] = .ok (.adcZp 0x10#8, [])

/-- Decoding the encoding of any instruction, with any bytes after it, gives the instruction and those bytes
(`30_encoding.md` sections 1 to 3). -/
def Obligations.DecodingAnEncodedInstructionGivesItBack : Prop :=
  ∀ (i : Instr) (rest : List Byte), decode (encode i ++ rest) = .ok (i, rest)

/-- Every byte sequence that decodes is the encoding of what it decodes to, followed by the rest: each legal word has one
meaning and no bit of it is dropped (`30_encoding.md` sections 1 to 3). -/
def Obligations.EveryDecodedWordIsTheEncodingOfItsInstruction : Prop :=
  ∀ (bytes rest : List Byte) (i : Instr), decode bytes = .ok (i, rest) → bytes = encode i ++ rest

/-- `50_execution.md` section 2: a request outside the 41 forms is refused at the boundary with no state change; every
other request names the one form whose mnemonic, mode and operand it gives. That a refused request answers the same next
state is log entry 14. The spec says that an operand of another width cannot be expressed; that the model can write one,
and refuses it like a pair that is no form, is the model's own choice (log entry 18). The list of forms is the spec's own
decision D9 (log entry 3). -/
def Obligations.OnlyTheFormsCanBeInvoked : Prop :=
  (∀ r s, r.wellFormed = false → perform (.invoke r) s = .next s) ∧
  ∀ r : Request, r.wellFormed = true ↔ ∃ i, r.instr? = some i ∧ i.request = r

/-! ### The instruction families -/

/-- `41_load.md` section 1: each of the 18 load forms completes with the operand byte in its register, Z and N from it,
and nothing else changed; PC in the two drive modes. The list of modes is the spec's own decision D9 (log entry 3), and
that an invocation leaves PC alone is D17 (log entry 14). -/
def Obligations.LoadsCopyTheOperandAndSetZeroAndNegative : Prop :=
  (∀ s d, exec (.ldaImm d) s = .next (afterLda d s)) ∧
  (∀ s d, exec (.ldaZp d) s = .next (afterLda (memRead (eaZp d) s) s)) ∧
  (∀ s d, exec (.ldaZpx d) s = .next (afterLda (memRead (eaZpx d s) s) s)) ∧
  (∀ s w, exec (.ldaAbs w) s = .next (afterLda (memRead (eaAbs w) s) s)) ∧
  (∀ s w, exec (.ldaAbsx w) s = .next (afterLda (memRead (eaAbsx w s) s) s)) ∧
  (∀ s w, exec (.ldaAbsy w) s = .next (afterLda (memRead (eaAbsy w s) s) s)) ∧
  (∀ s d, exec (.ldaIndx d) s = .next (afterLda (memRead (eaIndx d s) s) s)) ∧
  (∀ s d, exec (.ldaIndy d) s = .next (afterLda (memRead (eaIndy d s) s) s)) ∧
  (∀ s d, exec (.ldxImm d) s = .next (afterLdx d s)) ∧
  (∀ s d, exec (.ldxZp d) s = .next (afterLdx (memRead (eaZp d) s) s)) ∧
  (∀ s d, exec (.ldxZpy d) s = .next (afterLdx (memRead (eaZpy d s) s) s)) ∧
  (∀ s w, exec (.ldxAbs w) s = .next (afterLdx (memRead (eaAbs w) s) s)) ∧
  (∀ s w, exec (.ldxAbsy w) s = .next (afterLdx (memRead (eaAbsy w s) s) s)) ∧
  (∀ s d, exec (.ldyImm d) s = .next (afterLdy d s)) ∧
  (∀ s d, exec (.ldyZp d) s = .next (afterLdy (memRead (eaZp d) s) s)) ∧
  (∀ s d, exec (.ldyZpx d) s = .next (afterLdy (memRead (eaZpx d s) s) s)) ∧
  (∀ s w, exec (.ldyAbs w) s = .next (afterLdy (memRead (eaAbs w) s) s)) ∧
  (∀ s w, exec (.ldyAbsx w) s = .next (afterLdy (memRead (eaAbsx w s) s) s)) ∧
  PcRule .lda ∧ PcRule .ldx ∧ PcRule .ldy

/-- `42_adc.md` section 1: each of the 8 ADC forms completes with A = (A + m) mod 256, C = (A + m > 255), Z and N from the
result, V by the threshold rule, and nothing else changed; PC in the two drive modes. That no carry is added (D6), that V
takes the result and the C flag before (D7) and that D plays no part (D8) are the spec's own decisions (log entry 4), as
are the list of modes (D9, log entry 3) and that an invocation leaves PC alone (D17, log entry 14). -/
def Obligations.AdcAddsWithoutCarryInAndSetsFourFlags : Prop :=
  (∀ s d, exec (.adcImm d) s = .next (afterAdc d s)) ∧
  (∀ s d, exec (.adcZp d) s = .next (afterAdc (memRead (eaZp d) s) s)) ∧
  (∀ s d, exec (.adcZpx d) s = .next (afterAdc (memRead (eaZpx d s) s) s)) ∧
  (∀ s w, exec (.adcAbs w) s = .next (afterAdc (memRead (eaAbs w) s) s)) ∧
  (∀ s w, exec (.adcAbsx w) s = .next (afterAdc (memRead (eaAbsx w s) s) s)) ∧
  (∀ s w, exec (.adcAbsy w) s = .next (afterAdc (memRead (eaAbsy w s) s) s)) ∧
  (∀ s d, exec (.adcIndx d) s = .next (afterAdc (memRead (eaIndx d s) s) s)) ∧
  (∀ s d, exec (.adcIndy d) s = .next (afterAdc (memRead (eaIndy d s) s) s)) ∧
  PcRule .adc

/-- `43_and.md` section 1: each of the 8 AND forms completes with A = A & m, Z and N from it, and nothing else changed;
the result is never greater than either input; PC in the two drive modes. The list of modes is the spec's own decision D9
(log entry 3), and that an invocation leaves PC alone is D17 (log entry 14). -/
def Obligations.AndMasksTheAccumulatorAndSetsZeroAndNegative : Prop :=
  (∀ s d, exec (.andImm d) s = .next (afterAnd d s)) ∧
  (∀ s d, exec (.andZp d) s = .next (afterAnd (memRead (eaZp d) s) s)) ∧
  (∀ s d, exec (.andZpx d) s = .next (afterAnd (memRead (eaZpx d s) s) s)) ∧
  (∀ s w, exec (.andAbs w) s = .next (afterAnd (memRead (eaAbs w) s) s)) ∧
  (∀ s w, exec (.andAbsx w) s = .next (afterAnd (memRead (eaAbsx w s) s) s)) ∧
  (∀ s w, exec (.andAbsy w) s = .next (afterAnd (memRead (eaAbsy w s) s) s)) ∧
  (∀ s d, exec (.andIndx d) s = .next (afterAnd (memRead (eaIndx d s) s) s)) ∧
  (∀ s d, exec (.andIndy d) s = .next (afterAnd (memRead (eaIndy d s) s) s)) ∧
  (∀ s m, (afterAnd m s).a.toNat ≤ s.a.toNat ∧ (afterAnd m s).a.toNat ≤ m.toNat) ∧
  PcRule .and

/-- `44_store.md` section 1: each of the 7 STA forms completes with A in the cell at the effective address, computed
before the store, and nothing else changed, no flag among it; PC in the two drive modes. The list of modes is the spec's
own decision D9 (log entry 3), and that an invocation leaves PC alone is D17 (log entry 14). -/
def Obligations.StaWritesTheAccumulatorAndNothingElse : Prop :=
  (∀ s d, StoresAAt (.staZp d) s (eaZp d)) ∧
  (∀ s d, StoresAAt (.staZpx d) s (eaZpx d s)) ∧
  (∀ s w, StoresAAt (.staAbs w) s (eaAbs w)) ∧
  (∀ s w, StoresAAt (.staAbsx w) s (eaAbsx w s)) ∧
  (∀ s w, StoresAAt (.staAbsy w) s (eaAbsy w s)) ∧
  (∀ s d, StoresAAt (.staIndx d) s (eaIndx d s)) ∧
  (∀ s d, StoresAAt (.staIndy d) s (eaIndy d s)) ∧
  PcRule .sta

/-- `10_state.md` section 5, over all instructions: the flags a family writes, with their values, and every other bit of P
unchanged. ADC's C without a carry-in and V from the C flag before are the spec's own decisions D6 and D7 (log entry 4).
-/
def Obligations.EachFamilyWritesExactlyItsFlags : Prop :=
  ∀ i s, ∃ t, exec i s = .next t ∧
    match i.mnemonic with
    | .lda => t.p = zn s.p t.a
    | .ldx => t.p = zn s.p t.x
    | .ldy => t.p = zn s.p t.y
    | .and => t.p = zn s.p t.a
    | .adc => ∃ m, operandByte i s = some m ∧
        t.p.getLsbD 0 = decide (s.a.toNat + m.toNat > 255) ∧ t.p.getLsbD 1 = decide (t.a = 0#8) ∧
        t.p.getLsbD 7 = t.a.getLsbD 7 ∧
        t.p.getLsbD 6 = decide (t.a.toNat > if s.p.getLsbD 0 then 0x80 else 0x7F) ∧
        ∀ k, k ≠ 0 → k ≠ 1 → k ≠ 6 → k ≠ 7 → t.p.getLsbD k = s.p.getLsbD k
    | .sta => t.p = s.p

/-- The register frame over all instructions (`10_state.md` section 4): PC, SP and the latch unchanged by every execute
part; A written only by LDA, ADC and AND, X only by LDX, Y only by LDY; every byte of memory unchanged by every form but
STA's. -/
def Obligations.RegisterAndMemoryFrameOfEachFamily : Prop :=
  ∀ i s t, exec i s = .next t →
    t.pc = s.pc ∧ t.sp = s.sp ∧ t.fault = s.fault ∧
    (i.mnemonic ≠ .lda → i.mnemonic ≠ .adc → i.mnemonic ≠ .and → t.a = s.a) ∧
    (i.mnemonic ≠ .ldx → t.x = s.x) ∧ (i.mnemonic ≠ .ldy → t.y = s.y) ∧
    (i.mnemonic ≠ .sta → ∀ b, memRead b t = memRead b s)

/-- The memory frame of the storing forms (`44_store.md` section 1): every STA form has a store address, and only that
byte changes, to A. -/
def Obligations.StoresReachOnlyTheirEffectiveAddress : Prop :=
  ∀ i s t, exec i s = .next t → i.mnemonic = .sta →
    (storeAddress i s).isSome = true ∧
    ∀ ea, storeAddress i s = some ea → memRead ea t = s.a ∧ ∀ b, b ≠ ea → memRead b t = memRead b s

/-! ### The step -/

/-- A step runs the decoded instruction (`50_execution.md` section 3): when the bytes at PC decode and the fetch stays
below the top of memory, the step is the instruction's execute part in the state with PC past its bytes. That the program
buffer is memory is the spec's own decision D12 (log entry 13). -/
def Obligations.StepRunsTheDecodedInstruction : Prop :=
  ∀ s i rest, s.fault = none → decode (fetchWindow s) = .ok (i, rest) → s.pc.toNat + i.length ≤ 0xFFFF →
    step s = exec i { s with pc := s.pc + BitVec.ofNat 16 i.length }

/-- Where a step faults, and with what (`50_execution.md` section 3, `60_exceptions.md` section 2, in the order of the
checks): the opcode fetch at 0xFFFF, then an illegal opcode, then an operand fetch past the top. The two faults are the
spec's own decisions D2 and D13 (log entry 12), the latch is D14 (log entry 1), and the recorded address is log entry 2.
-/
def Obligations.StepFaultsByStartAddressAndOpcode : Prop :=
  (∀ s, s.fault = none → s.pc = 0xFFFF#16 → step s = .next { s with fault := some (.pcOverflow s.pc) }) ∧
  (∀ s, s.fault = none → s.pc ≠ 0xFFFF#16 → (decodeOpcode (memRead s.pc s)).isNone = true →
    step s = .next { s with fault := some (.illegalOpcode (memRead s.pc s) s.pc) }) ∧
  ∀ s form, s.fault = none → s.pc ≠ 0xFFFF#16 → decodeOpcode (memRead s.pc s) = some form →
    0xFFFF < s.pc.toNat + form.operandBytes + 1 → step s = .next { s with fault := some (.pcOverflow s.pc) }

/-- A raise is precise (`60_exceptions.md` section 2; the latch is the spec's own decision D14, log entry 1): a step that
ends with a fault latched has changed nothing but the latch. -/
def Obligations.RaiseChangesNothingButTheLatch : Prop :=
  ∀ s t, step s = .next t → t.fault ≠ none → t = { s with fault := t.fault }

/-- The faulted engine is inert (`50_execution.md` section 6; the spec's own decision D14, log entries 1 and 14): a tick,
an invocation, a jump and a load do nothing, and Reset gives the reset state. -/
def Obligations.FaultedEngineDoesNothingUntilReset : Prop :=
  ∀ s, s.fault ≠ none →
    step s = .next s ∧ (∀ r, perform (.invoke r) s = .next s) ∧ (∀ addr, perform (.jump addr) s = .next s) ∧
    (∀ base bytes, perform (.load base bytes) s = .next s) ∧ perform .reset s = .next State.reset

/-- `60_exceptions.md` sections 1 and 2, whole machine: every execute part completes and leaves the latch alone, every
step answers a next state, and the only faults a step can latch are IllegalOpcode and PCOverflow, with PC as their
address. That a raise answers a next state with the latch set is log entry 1 (the spec's own decision D14), the two faults
are its decisions D2 and D13 (log entry 12), and the recorded address is log entry 2. -/
def Obligations.StepsAlwaysAnswerAndOnlyFetchRaises : Prop :=
  (∀ i s, ∃ t, exec i s = .next t ∧ t.fault = s.fault) ∧
  ∀ s, ∃ t, step s = .next t ∧
    (s.fault = none → t.fault = none ∨ (∃ b, t.fault = some (.illegalOpcode b s.pc)) ∨
      t.fault = some (.pcOverflow s.pc))

/-- Execution is strictly sequential (`50_execution.md` section 5): a step that latches no fault has run the execute part
of the instruction that the bytes at PC decode to, and the next one is right after its last byte, at a higher address.
That PC does not wrap is the spec's own decision D2 (log entry 12), and that the bytes decoded are memory at PC is D12
(log entry 13). -/
def Obligations.ExecutionIsStrictlySequential : Prop :=
  ∀ s t, step s = .next t → t.fault = none →
    ∃ i rest, decode (fetchWindow s) = .ok (i, rest) ∧
      exec i { s with pc := s.pc + BitVec.ofNat 16 i.length } = .next t ∧
      t.pc.toNat = s.pc.toNat + i.length ∧ s.pc.toNat < t.pc.toNat

/-- A store is seen by a later fetch (`20_memory.md` section 3; the spec's own decision D12, log entry 13): after a write at PC
the next opcode fetch returns the written byte. -/
def Obligations.FetchSeesTheLatestStore : Prop :=
  ∀ s v pc0, s.pc ≠ 0xFFFF#16 →
    ∃ t, fetch8 pc0 (memWrite s.pc v s) = .ok (v, t) ∧ t.pc.toNat = s.pc.toNat + 1 ∧ t.mem = (memWrite s.pc v s).mem

/-- SP and the bits I, D, B and 5 of P are written by no step (`10_state.md` sections 3 and 5). -/
def Obligations.NoStepWritesSpOrTheUnusedBits : Prop :=
  ∀ s t, step s = .next t → t.sp = s.sp ∧ t.p &&& 0x3C#8 = s.p &&& 0x3C#8

/-! ### Whole-machine claims -/

/-- The invariant holds right after reset. That no fault is latched then is the spec's own decision D14 (log entry 1), and
the canonical form of memory is log entry 7. -/
def Obligations.InvariantHoldsAtReset : Prop := EngineInv State.reset

/-- Every step keeps the invariant, from every state that has it: canonical memory, SP at 0xFF, the unused bits of P at 0,
and a latched fault that says what is true of the state. The latch is the spec's own decision D14 (log entry 1), its
address is log entry 2, the 0xFFFD bound and the illegal byte are D2 and D13 (log entry 12), and canonical memory is log
entry 7. -/
def Obligations.EveryStepKeepsTheInvariant : Prop :=
  ∀ s s', EngineInv s → step s = .next s' → EngineInv s'

/-- Every run of host operations keeps the invariant, loads of any bytes and invocations of any request among them. The
clauses on the latch and on memory rest on log entries 1, 2, 7 and 12 (the spec's own decisions D2, D13 and D14), and the
host operations on log entries 5 and 14 (D16, D17 and D18). -/
def Obligations.EveryRunOfHostOperationsKeepsTheInvariant : Prop :=
  ∀ ops s s', EngineInv s → runOps ops s = .next s' → EngineInv s'

/-- There is no way for a program to loop (`50_execution.md` section 5, `70_reset_and_hazards.md` section 3): from every
state, 32768 ticks end with a fault latched. That execution ends at the top of memory or at an illegal byte rests on the
spec's own decisions D2 and D13 (log entry 12), and that the engine then stays stopped on D14 (log entry 1). -/
def Obligations.EveryProgramHaltsWithin32768Ticks : Prop :=
  ∀ s : State, ∃ t : State, Host.Core.run Sys2Proof.core 32768 s = .next t ∧ t.fault ≠ none

/-- The flags steer nothing (`10_state.md` section 5): two states that differ only in P step to states that differ only in
P. That A after ADC depends on neither C nor D is the spec's own decisions D6 and D8 (log entry 4). -/
def Obligations.FlagsNeverSteerExecution : Prop :=
  ∀ s t, SameButFlags s t → ∃ s' t', step s = .next s' ∧ step t = .next t' ∧ SameButFlags s' t'

/-- SP and the bits I, D, B and 5 of P influence nothing else (`10_state.md` sections 3 and 5): two states that differ
only there step to states that differ only there, C, Z, V and N among what agrees. That ADC does not read D is the spec's
own decision D8 (log entry 4), and that no result depends on bit 5 is D23. -/
def Obligations.UnusedBitsNeverInfluenceAStep : Prop :=
  ∀ s t, SameButUnused s t → ∃ s' t', step s = .next s' ∧ step t = .next t' ∧ SameButUnused s' t'

/-! ### Host operations -/

/-- `50_execution.md` section 2: Invoke performs exactly the execute part of the form with the supplied operand, nothing
being fetched, and returns at once with nothing done while FAULT is set. The latch is the spec's own decision D14 (log
entries 1, 8 and 14). -/
def Obligations.InvokePerformsTheExecutePartAlone : Prop :=
  (∀ (i : Instr) (s : State), s.fault = none → ∃ t, exec i s = .next t ∧ perform (.invoke i.request) s = .next t) ∧
  ∀ (i : Instr) (s : State), s.fault ≠ none → perform (.invoke i.request) s = .next s

/-- Invoke neither reads nor writes PC (`50_execution.md` section 2; the spec's own decision D17, log entry 14): with
another PC it does the same to everything else, and PC stays. -/
def Obligations.InvokeNeitherReadsNorWritesPc : Prop :=
  ∀ (r : Request) (s : State), s.fault = none → ∃ t, perform (.invoke r) s = .next t ∧ t.pc = s.pc ∧
    ∀ pc', perform (.invoke r) { s with pc := pc' } = .next { t with pc := pc' }

/-- Load places its bytes from the base up, modulo 65536, and touches nothing but the cells it writes (`50_execution.md`
section 4; the spec's own decision D12, log entry 14; longer loads are log entry 5). -/
def Obligations.LoadPlacesItsBytesAndTouchesNothingElse : Prop :=
  ∀ s base bytes, s.fault = none → bytes.length ≤ 65536 →
    ∃ t, perform (.load base bytes) s = .next t ∧ t = { s with mem := t.mem } ∧
      (∀ (k : Nat) (b : Byte), bytes[k]? = some b → memRead (base + BitVec.ofNat 16 k) t = b) ∧
      ∀ a, (∀ k, k < bytes.length → a ≠ base + BitVec.ofNat 16 k) → memRead a t = memRead a s

/-- The boot sequence (`70_reset_and_hazards.md` section 2; the spec's own decisions D12 and D16, log entries 13 and 14):
Reset, Load of an encoded instruction below the top of memory, Jump to it and one Tick run it in the reset state that
holds its bytes. -/
def Obligations.LoadedInstructionRunsAfterJump : Prop :=
  ∀ s base i, base.toNat + i.length ≤ 0xFFFF →
    ∃ loaded, perform (.load base (encode i)) State.reset = .next loaded ∧
      runOps [.reset, .load base (encode i), .jump base, .tick] s =
        exec i { loaded with pc := base + BitVec.ofNat 16 i.length }

/-- The step after `withFetchWord` runs exactly the instruction that the decoder reads from the word (the model's own
loading of one instruction, log entry 6). -/
def Obligations.PlacedTableWordIsTheNextInstruction : Prop :=
  ∀ (s : State) (nbits w : Nat) (i : Instr), decodeTableWord nbits w = some i →
    step (s.withFetchWord nbits w) =
      exec i { s.withFetchWord nbits w with pc := (s.withFetchWord nbits w).pc + BitVec.ofNat 16 i.length }
end

