-- ==== Sys2Proof/Laws/Decode.lean ====
section
/-! SUPPORT. The halves of a word, and what a successful lookup or decode says. -/

namespace Sys2Proof

/-- A word is put together again from its two bytes (R55, R83). -/
theorem wordOfBytes_lo_hi (w : Word) : wordOfBytes (loByte w) (hiByte w) = w := by
  apply BitVec.eq_of_getLsbD_eq
  intro k hk
  simp only [wordOfBytes, loByte, hiByte, BitVec.getLsbD_or, BitVec.getLsbD_shiftLeft, BitVec.getLsbD_setWidth,
    BitVec.getLsbD_ushiftRight]
  by_cases h : k < 8
  · simp [h, hk]
  · simp [h, hk, show k - 8 < 16 by omega, show k - 8 < 8 by omega, show 8 + (k - 8) = k by omega]

theorem loByte_wordOfBytes (l h : Byte) : loByte (wordOfBytes l h) = l := by
  apply BitVec.eq_of_getLsbD_eq
  intro k hk
  simp [wordOfBytes, loByte, hk]

theorem hiByte_wordOfBytes (l h : Byte) : hiByte (wordOfBytes l h) = h := by
  apply BitVec.eq_of_getLsbD_eq
  intro k hk
  simp [wordOfBytes, hiByte, hk, show 8 + k < 16 by omega]

/-- `{h, l}` is the number `h*256 + l` (R6). -/
theorem wordOfBytes_toNat (l h : Byte) : (wordOfBytes l h).toNat = h.toNat * 256 + l.toNat := by
  have hl := l.isLt
  have hh := h.isLt
  have hsmall : h.toNat <<< 8 < 2 ^ 16 := by rw [Nat.shiftLeft_eq]; omega
  simp only [wordOfBytes, BitVec.toNat_or, BitVec.toNat_shiftLeft, BitVec.toNat_setWidth]
  rw [Nat.mod_eq_of_lt (show h.toNat < 2 ^ 16 by omega), Nat.mod_eq_of_lt (show l.toNat < 2 ^ 16 by omega),
    Nat.mod_eq_of_lt hsmall, ← Nat.shiftLeft_add_eq_or_of_lt (show l.toNat < 2 ^ 8 from hl), Nat.shiftLeft_eq]

theorem zext16_toNat (v : Byte) : (zext16 v).toNat = v.toNat := by
  have : v.toNat < 256 := v.isLt
  simp only [zext16, BitVec.toNat_setWidth]
  omega

/-- A legal opcode byte is a row of the table (R89). -/
theorem decodeOpcode_some {b : Byte} {form : OpcodeForm} (h : decodeOpcode b = some form) :
    ∃ r ∈ opcodeTable, r.opcode = b ∧ r.form = form := by
  obtain ⟨r, hr, hf⟩ := Option.map_eq_some_iff.mp h
  exact ⟨r, List.mem_of_find?_eq_some hr, by simpa using List.find?_some hr, hf⟩

/-- The row of the opcode table that a decoded instruction came through, and how its bytes were taken. -/
theorem decode_ok {bytes rest : List Byte} {i : Instr} (h : decode bytes = .ok (i, rest)) :
    ∃ b tail form, bytes = b :: tail ∧ decodeOpcode b = some form ∧ takeOperand form tail = .ok (i, rest) := by
  cases bytes with
  | nil => cases h
  | cons b tail =>
    cases hf : decodeOpcode b with
    | none => simp [decode, hf] at h
    | some form => exact ⟨b, tail, form, rfl, hf, by simpa [decode, hf] using h⟩

/-- Every form that the table builds has the length of its format (R80, R88). -/
theorem opcodeForm_length {form : OpcodeForm} {b : Byte} (h : decodeOpcode b = some form)
    {tail rest : List Byte} {i : Instr} (ht : takeOperand form tail = .ok (i, rest)) :
    i.length = form.operandBytes + 1 := by
  have op8 : ∀ r ∈ opcodeTable, ∀ build, r.form = .op8 build → ∀ d, (build d).length = 2 := by
    intro r hr
    simp only [opcodeTable, ldaRows, ldxRows, ldyRows, adcRows, andRows, staRows, List.cons_append, List.nil_append,
      List.mem_cons, List.not_mem_nil, or_false] at hr
    rcases hr with rfl | rfl | rfl | rfl | rfl | rfl | rfl | rfl | rfl | rfl | rfl | rfl | rfl | rfl | rfl | rfl | rfl |
      rfl | rfl | rfl | rfl | rfl | rfl | rfl | rfl | rfl | rfl | rfl | rfl | rfl | rfl | rfl | rfl | rfl | rfl | rfl |
      rfl | rfl | rfl | rfl | rfl <;> intro build hb d <;> cases hb <;> rfl
  have op16 : ∀ r ∈ opcodeTable, ∀ build, r.form = .op16 build → ∀ w, (build w).length = 3 := by
    intro r hr
    simp only [opcodeTable, ldaRows, ldxRows, ldyRows, adcRows, andRows, staRows, List.cons_append, List.nil_append,
      List.mem_cons, List.not_mem_nil, or_false] at hr
    rcases hr with rfl | rfl | rfl | rfl | rfl | rfl | rfl | rfl | rfl | rfl | rfl | rfl | rfl | rfl | rfl | rfl | rfl |
      rfl | rfl | rfl | rfl | rfl | rfl | rfl | rfl | rfl | rfl | rfl | rfl | rfl | rfl | rfl | rfl | rfl | rfl | rfl |
      rfl | rfl | rfl | rfl | rfl <;> intro build hb w <;> cases hb <;> rfl
  obtain ⟨r, hr, -, rfl⟩ := decodeOpcode_some h
  cases hf : r.form with
  | op8 build =>
    rw [hf] at ht
    cases tail with
    | nil => cases ht
    | cons d tail => cases ht; exact op8 r hr build hf d
  | op16 build =>
    rw [hf] at ht
    match tail, ht with
    | wl :: wh :: _, ht => cases ht; exact op16 r hr build hf _

end Sys2Proof
end

