-- ==== Sys2Proof/Laws/State.lean ====
section
/-! SUPPORT. What each state update does to each field of `State`, so that no later proof unfolds a record update. -/

namespace Sys2Proof.Machine

@[simp] theorem memWrite_pc (addr : Word) (v : Byte) (s : State) : (memWrite addr v s).pc = s.pc := rfl
@[simp] theorem memWrite_sp (addr : Word) (v : Byte) (s : State) : (memWrite addr v s).sp = s.sp := rfl
@[simp] theorem memWrite_a (addr : Word) (v : Byte) (s : State) : (memWrite addr v s).a = s.a := rfl
@[simp] theorem memWrite_x (addr : Word) (v : Byte) (s : State) : (memWrite addr v s).x = s.x := rfl
@[simp] theorem memWrite_y (addr : Word) (v : Byte) (s : State) : (memWrite addr v s).y = s.y := rfl
@[simp] theorem memWrite_p (addr : Word) (v : Byte) (s : State) : (memWrite addr v s).p = s.p := rfl
@[simp] theorem memWrite_mem (addr : Word) (v : Byte) (s : State) : (memWrite addr v s).mem = s.mem.write addr.toNat v := rfl
@[simp] theorem memWrite_fault (addr : Word) (v : Byte) (s : State) : (memWrite addr v s).fault = s.fault := rfl

@[simp] theorem memReset_pc (s : State) : (memReset s).pc = s.pc := rfl
@[simp] theorem memReset_sp (s : State) : (memReset s).sp = s.sp := rfl
@[simp] theorem memReset_a (s : State) : (memReset s).a = s.a := rfl
@[simp] theorem memReset_x (s : State) : (memReset s).x = s.x := rfl
@[simp] theorem memReset_y (s : State) : (memReset s).y = s.y := rfl
@[simp] theorem memReset_p (s : State) : (memReset s).p = s.p := rfl
@[simp] theorem memReset_mem (s : State) : (memReset s).mem = [] := rfl
@[simp] theorem memReset_fault (s : State) : (memReset s).fault = s.fault := rfl

@[simp] theorem raiseFault_pc (f : Fault) (s : State) : (raiseFault f s).pc = s.pc := rfl
@[simp] theorem raiseFault_sp (f : Fault) (s : State) : (raiseFault f s).sp = s.sp := rfl
@[simp] theorem raiseFault_a (f : Fault) (s : State) : (raiseFault f s).a = s.a := rfl
@[simp] theorem raiseFault_x (f : Fault) (s : State) : (raiseFault f s).x = s.x := rfl
@[simp] theorem raiseFault_y (f : Fault) (s : State) : (raiseFault f s).y = s.y := rfl
@[simp] theorem raiseFault_p (f : Fault) (s : State) : (raiseFault f s).p = s.p := rfl
@[simp] theorem raiseFault_mem (f : Fault) (s : State) : (raiseFault f s).mem = s.mem := rfl
@[simp] theorem raiseFault_fault (f : Fault) (s : State) : (raiseFault f s).fault = some f := rfl

@[simp] theorem pcJump_pc (addr : Word) (s : State) : (pcJump addr s).pc = addr := rfl
@[simp] theorem pcJump_sp (addr : Word) (s : State) : (pcJump addr s).sp = s.sp := rfl
@[simp] theorem pcJump_a (addr : Word) (s : State) : (pcJump addr s).a = s.a := rfl
@[simp] theorem pcJump_x (addr : Word) (s : State) : (pcJump addr s).x = s.x := rfl
@[simp] theorem pcJump_y (addr : Word) (s : State) : (pcJump addr s).y = s.y := rfl
@[simp] theorem pcJump_p (addr : Word) (s : State) : (pcJump addr s).p = s.p := rfl
@[simp] theorem pcJump_mem (addr : Word) (s : State) : (pcJump addr s).mem = s.mem := rfl
@[simp] theorem pcJump_fault (addr : Word) (s : State) : (pcJump addr s).fault = s.fault := rfl

@[simp] theorem spPush_snd_pc (s : State) : ((spPush s).2).pc = s.pc := rfl
@[simp] theorem spPush_snd_sp (s : State) : ((spPush s).2).sp = s.sp - 1#8 := rfl
@[simp] theorem spPush_snd_a (s : State) : ((spPush s).2).a = s.a := rfl
@[simp] theorem spPush_snd_x (s : State) : ((spPush s).2).x = s.x := rfl
@[simp] theorem spPush_snd_y (s : State) : ((spPush s).2).y = s.y := rfl
@[simp] theorem spPush_snd_p (s : State) : ((spPush s).2).p = s.p := rfl
@[simp] theorem spPush_snd_mem (s : State) : ((spPush s).2).mem = s.mem := rfl
@[simp] theorem spPush_snd_fault (s : State) : ((spPush s).2).fault = s.fault := rfl

@[simp] theorem spPop_snd_pc (s : State) : ((spPop s).2).pc = s.pc := rfl
@[simp] theorem spPop_snd_sp (s : State) : ((spPop s).2).sp = s.sp + 1#8 := rfl
@[simp] theorem spPop_snd_a (s : State) : ((spPop s).2).a = s.a := rfl
@[simp] theorem spPop_snd_x (s : State) : ((spPop s).2).x = s.x := rfl
@[simp] theorem spPop_snd_y (s : State) : ((spPop s).2).y = s.y := rfl
@[simp] theorem spPop_snd_p (s : State) : ((spPop s).2).p = s.p := rfl
@[simp] theorem spPop_snd_mem (s : State) : ((spPop s).2).mem = s.mem := rfl
@[simp] theorem spPop_snd_fault (s : State) : ((spPop s).2).fault = s.fault := rfl

@[simp] theorem grSet_a_pc (v : Byte) (s : State) : (grSet .a v s).pc = s.pc := rfl
@[simp] theorem grSet_a_sp (v : Byte) (s : State) : (grSet .a v s).sp = s.sp := rfl
@[simp] theorem grSet_a_a (v : Byte) (s : State) : (grSet .a v s).a = v := rfl
@[simp] theorem grSet_a_x (v : Byte) (s : State) : (grSet .a v s).x = s.x := rfl
@[simp] theorem grSet_a_y (v : Byte) (s : State) : (grSet .a v s).y = s.y := rfl
@[simp] theorem grSet_a_p (v : Byte) (s : State) : (grSet .a v s).p = s.p := rfl
@[simp] theorem grSet_a_mem (v : Byte) (s : State) : (grSet .a v s).mem = s.mem := rfl
@[simp] theorem grSet_a_fault (v : Byte) (s : State) : (grSet .a v s).fault = s.fault := rfl

@[simp] theorem grSet_x_pc (v : Byte) (s : State) : (grSet .x v s).pc = s.pc := rfl
@[simp] theorem grSet_x_sp (v : Byte) (s : State) : (grSet .x v s).sp = s.sp := rfl
@[simp] theorem grSet_x_a (v : Byte) (s : State) : (grSet .x v s).a = s.a := rfl
@[simp] theorem grSet_x_x (v : Byte) (s : State) : (grSet .x v s).x = v := rfl
@[simp] theorem grSet_x_y (v : Byte) (s : State) : (grSet .x v s).y = s.y := rfl
@[simp] theorem grSet_x_p (v : Byte) (s : State) : (grSet .x v s).p = s.p := rfl
@[simp] theorem grSet_x_mem (v : Byte) (s : State) : (grSet .x v s).mem = s.mem := rfl
@[simp] theorem grSet_x_fault (v : Byte) (s : State) : (grSet .x v s).fault = s.fault := rfl

@[simp] theorem grSet_y_pc (v : Byte) (s : State) : (grSet .y v s).pc = s.pc := rfl
@[simp] theorem grSet_y_sp (v : Byte) (s : State) : (grSet .y v s).sp = s.sp := rfl
@[simp] theorem grSet_y_a (v : Byte) (s : State) : (grSet .y v s).a = s.a := rfl
@[simp] theorem grSet_y_x (v : Byte) (s : State) : (grSet .y v s).x = s.x := rfl
@[simp] theorem grSet_y_y (v : Byte) (s : State) : (grSet .y v s).y = v := rfl
@[simp] theorem grSet_y_p (v : Byte) (s : State) : (grSet .y v s).p = s.p := rfl
@[simp] theorem grSet_y_mem (v : Byte) (s : State) : (grSet .y v s).mem = s.mem := rfl
@[simp] theorem grSet_y_fault (v : Byte) (s : State) : (grSet .y v s).fault = s.fault := rfl

@[simp] theorem grSet_pc (g : Gr) (v : Byte) (s : State) : (grSet g v s).pc = s.pc := by cases g <;> rfl
@[simp] theorem grSet_sp (g : Gr) (v : Byte) (s : State) : (grSet g v s).sp = s.sp := by cases g <;> rfl
@[simp] theorem grSet_p (g : Gr) (v : Byte) (s : State) : (grSet g v s).p = s.p := by cases g <;> rfl
@[simp] theorem grSet_mem (g : Gr) (v : Byte) (s : State) : (grSet g v s).mem = s.mem := by cases g <;> rfl
@[simp] theorem grSet_fault (g : Gr) (v : Byte) (s : State) : (grSet g v s).fault = s.fault := by cases g <;> rfl

@[simp] theorem setFlag_pc (f : Flag) (s : State) : (setFlag f s).pc = s.pc := rfl
@[simp] theorem setFlag_sp (f : Flag) (s : State) : (setFlag f s).sp = s.sp := rfl
@[simp] theorem setFlag_a (f : Flag) (s : State) : (setFlag f s).a = s.a := rfl
@[simp] theorem setFlag_x (f : Flag) (s : State) : (setFlag f s).x = s.x := rfl
@[simp] theorem setFlag_y (f : Flag) (s : State) : (setFlag f s).y = s.y := rfl
@[simp] theorem setFlag_p (f : Flag) (s : State) : (setFlag f s).p = s.p ||| flagMask f := rfl
@[simp] theorem setFlag_mem (f : Flag) (s : State) : (setFlag f s).mem = s.mem := rfl
@[simp] theorem setFlag_fault (f : Flag) (s : State) : (setFlag f s).fault = s.fault := rfl

@[simp] theorem clearFlag_pc (f : Flag) (s : State) : (clearFlag f s).pc = s.pc := rfl
@[simp] theorem clearFlag_sp (f : Flag) (s : State) : (clearFlag f s).sp = s.sp := rfl
@[simp] theorem clearFlag_a (f : Flag) (s : State) : (clearFlag f s).a = s.a := rfl
@[simp] theorem clearFlag_x (f : Flag) (s : State) : (clearFlag f s).x = s.x := rfl
@[simp] theorem clearFlag_y (f : Flag) (s : State) : (clearFlag f s).y = s.y := rfl
@[simp] theorem clearFlag_p (f : Flag) (s : State) : (clearFlag f s).p = s.p &&& ~~~ flagMask f := rfl
@[simp] theorem clearFlag_mem (f : Flag) (s : State) : (clearFlag f s).mem = s.mem := rfl
@[simp] theorem clearFlag_fault (f : Flag) (s : State) : (clearFlag f s).fault = s.fault := rfl

@[simp] theorem putFlag_pc (f : Flag) (b : Bool) (s : State) : (putFlag f b s).pc = s.pc := by cases b <;> rfl
@[simp] theorem putFlag_sp (f : Flag) (b : Bool) (s : State) : (putFlag f b s).sp = s.sp := by cases b <;> rfl
@[simp] theorem putFlag_a (f : Flag) (b : Bool) (s : State) : (putFlag f b s).a = s.a := by cases b <;> rfl
@[simp] theorem putFlag_x (f : Flag) (b : Bool) (s : State) : (putFlag f b s).x = s.x := by cases b <;> rfl
@[simp] theorem putFlag_y (f : Flag) (b : Bool) (s : State) : (putFlag f b s).y = s.y := by cases b <;> rfl
@[simp] theorem putFlag_p (f : Flag) (b : Bool) (s : State) : (putFlag f b s).p = if b then s.p ||| flagMask f else s.p &&& ~~~ flagMask f := by cases b <;> rfl
@[simp] theorem putFlag_mem (f : Flag) (b : Bool) (s : State) : (putFlag f b s).mem = s.mem := by cases b <;> rfl
@[simp] theorem putFlag_fault (f : Flag) (b : Bool) (s : State) : (putFlag f b s).fault = s.fault := by cases b <;> rfl

@[simp] theorem pSet_pc (v : Byte) (s : State) : (pSet v s).pc = s.pc := rfl
@[simp] theorem pSet_sp (v : Byte) (s : State) : (pSet v s).sp = s.sp := rfl
@[simp] theorem pSet_a (v : Byte) (s : State) : (pSet v s).a = s.a := rfl
@[simp] theorem pSet_x (v : Byte) (s : State) : (pSet v s).x = s.x := rfl
@[simp] theorem pSet_y (v : Byte) (s : State) : (pSet v s).y = s.y := rfl
@[simp] theorem pSet_p (v : Byte) (s : State) : (pSet v s).p = v := rfl
@[simp] theorem pSet_mem (v : Byte) (s : State) : (pSet v s).mem = s.mem := rfl
@[simp] theorem pSet_fault (v : Byte) (s : State) : (pSet v s).fault = s.fault := rfl

@[simp] theorem handleCFlag_pc (c : Bool) (s : State) : (handleCFlag c s).pc = s.pc := by simp [handleCFlag]
@[simp] theorem handleCFlag_sp (c : Bool) (s : State) : (handleCFlag c s).sp = s.sp := by simp [handleCFlag]
@[simp] theorem handleCFlag_a (c : Bool) (s : State) : (handleCFlag c s).a = s.a := by simp [handleCFlag]
@[simp] theorem handleCFlag_x (c : Bool) (s : State) : (handleCFlag c s).x = s.x := by simp [handleCFlag]
@[simp] theorem handleCFlag_y (c : Bool) (s : State) : (handleCFlag c s).y = s.y := by simp [handleCFlag]
@[simp] theorem handleCFlag_mem (c : Bool) (s : State) : (handleCFlag c s).mem = s.mem := by simp [handleCFlag]
@[simp] theorem handleCFlag_fault (c : Bool) (s : State) : (handleCFlag c s).fault = s.fault := by simp [handleCFlag]

@[simp] theorem handleZFlag_pc (r : Byte) (s : State) : (handleZFlag r s).pc = s.pc := by simp [handleZFlag]
@[simp] theorem handleZFlag_sp (r : Byte) (s : State) : (handleZFlag r s).sp = s.sp := by simp [handleZFlag]
@[simp] theorem handleZFlag_a (r : Byte) (s : State) : (handleZFlag r s).a = s.a := by simp [handleZFlag]
@[simp] theorem handleZFlag_x (r : Byte) (s : State) : (handleZFlag r s).x = s.x := by simp [handleZFlag]
@[simp] theorem handleZFlag_y (r : Byte) (s : State) : (handleZFlag r s).y = s.y := by simp [handleZFlag]
@[simp] theorem handleZFlag_mem (r : Byte) (s : State) : (handleZFlag r s).mem = s.mem := by simp [handleZFlag]
@[simp] theorem handleZFlag_fault (r : Byte) (s : State) : (handleZFlag r s).fault = s.fault := by simp [handleZFlag]

@[simp] theorem handleNFlag_pc (r : Byte) (s : State) : (handleNFlag r s).pc = s.pc := by simp [handleNFlag]
@[simp] theorem handleNFlag_sp (r : Byte) (s : State) : (handleNFlag r s).sp = s.sp := by simp [handleNFlag]
@[simp] theorem handleNFlag_a (r : Byte) (s : State) : (handleNFlag r s).a = s.a := by simp [handleNFlag]
@[simp] theorem handleNFlag_x (r : Byte) (s : State) : (handleNFlag r s).x = s.x := by simp [handleNFlag]
@[simp] theorem handleNFlag_y (r : Byte) (s : State) : (handleNFlag r s).y = s.y := by simp [handleNFlag]
@[simp] theorem handleNFlag_mem (r : Byte) (s : State) : (handleNFlag r s).mem = s.mem := by simp [handleNFlag]
@[simp] theorem handleNFlag_fault (r : Byte) (s : State) : (handleNFlag r s).fault = s.fault := by simp [handleNFlag]

@[simp] theorem handleVFlag_pc (v : Byte) (c : Bool) (s : State) : (handleVFlag v c s).pc = s.pc := by simp [handleVFlag]
@[simp] theorem handleVFlag_sp (v : Byte) (c : Bool) (s : State) : (handleVFlag v c s).sp = s.sp := by simp [handleVFlag]
@[simp] theorem handleVFlag_a (v : Byte) (c : Bool) (s : State) : (handleVFlag v c s).a = s.a := by simp [handleVFlag]
@[simp] theorem handleVFlag_x (v : Byte) (c : Bool) (s : State) : (handleVFlag v c s).x = s.x := by simp [handleVFlag]
@[simp] theorem handleVFlag_y (v : Byte) (c : Bool) (s : State) : (handleVFlag v c s).y = s.y := by simp [handleVFlag]
@[simp] theorem handleVFlag_mem (v : Byte) (c : Bool) (s : State) : (handleVFlag v c s).mem = s.mem := by simp [handleVFlag]
@[simp] theorem handleVFlag_fault (v : Byte) (c : Bool) (s : State) : (handleVFlag v c s).fault = s.fault := by simp [handleVFlag]

@[simp] theorem loadInto_pc (g : Gr) (m : Byte) (s : State) : (loadInto g m s).pc = s.pc := by simp [loadInto]
@[simp] theorem loadInto_sp (g : Gr) (m : Byte) (s : State) : (loadInto g m s).sp = s.sp := by simp [loadInto]
@[simp] theorem loadInto_mem (g : Gr) (m : Byte) (s : State) : (loadInto g m s).mem = s.mem := by simp [loadInto]
@[simp] theorem loadInto_fault (g : Gr) (m : Byte) (s : State) : (loadInto g m s).fault = s.fault := by simp [loadInto]

@[simp] theorem loadInto_a_a (m : Byte) (s : State) : (loadInto .a m s).a = m := by simp [loadInto]
@[simp] theorem loadInto_a_x (m : Byte) (s : State) : (loadInto .a m s).x = s.x := by simp [loadInto]
@[simp] theorem loadInto_a_y (m : Byte) (s : State) : (loadInto .a m s).y = s.y := by simp [loadInto]
@[simp] theorem loadInto_x_a (m : Byte) (s : State) : (loadInto .x m s).a = s.a := by simp [loadInto]
@[simp] theorem loadInto_x_x (m : Byte) (s : State) : (loadInto .x m s).x = m := by simp [loadInto]
@[simp] theorem loadInto_x_y (m : Byte) (s : State) : (loadInto .x m s).y = s.y := by simp [loadInto]
@[simp] theorem loadInto_y_a (m : Byte) (s : State) : (loadInto .y m s).a = s.a := by simp [loadInto]
@[simp] theorem loadInto_y_x (m : Byte) (s : State) : (loadInto .y m s).x = s.x := by simp [loadInto]
@[simp] theorem loadInto_y_y (m : Byte) (s : State) : (loadInto .y m s).y = m := by simp [loadInto]

@[simp] theorem adcWith_pc (c : Bool) (src : Config.VCarrySrc) (m : Byte) (s : State) : (adcWith c src m s).pc = s.pc := by simp [adcWith]
@[simp] theorem adcWith_sp (c : Bool) (src : Config.VCarrySrc) (m : Byte) (s : State) : (adcWith c src m s).sp = s.sp := by simp [adcWith]
@[simp] theorem adcWith_x (c : Bool) (src : Config.VCarrySrc) (m : Byte) (s : State) : (adcWith c src m s).x = s.x := by simp [adcWith]
@[simp] theorem adcWith_y (c : Bool) (src : Config.VCarrySrc) (m : Byte) (s : State) : (adcWith c src m s).y = s.y := by simp [adcWith]
@[simp] theorem adcWith_mem (c : Bool) (src : Config.VCarrySrc) (m : Byte) (s : State) : (adcWith c src m s).mem = s.mem := by simp [adcWith]
@[simp] theorem adcWith_fault (c : Bool) (src : Config.VCarrySrc) (m : Byte) (s : State) : (adcWith c src m s).fault = s.fault := by simp [adcWith]

@[simp] theorem adcExec_pc (m : Byte) (s : State) : (adcExec m s).pc = s.pc := by simp [adcExec]
@[simp] theorem adcExec_sp (m : Byte) (s : State) : (adcExec m s).sp = s.sp := by simp [adcExec]
@[simp] theorem adcExec_x (m : Byte) (s : State) : (adcExec m s).x = s.x := by simp [adcExec]
@[simp] theorem adcExec_y (m : Byte) (s : State) : (adcExec m s).y = s.y := by simp [adcExec]
@[simp] theorem adcExec_mem (m : Byte) (s : State) : (adcExec m s).mem = s.mem := by simp [adcExec]
@[simp] theorem adcExec_fault (m : Byte) (s : State) : (adcExec m s).fault = s.fault := by simp [adcExec]

@[simp] theorem adcExec_a (m : Byte) (s : State) : (adcExec m s).a = s.a + m := by
  simp [adcExec, adcWith, Config.adcCarryIn, BitVec.ofNat_add]

@[simp] theorem andExec_pc (m : Byte) (s : State) : (andExec m s).pc = s.pc := by simp [andExec]
@[simp] theorem andExec_sp (m : Byte) (s : State) : (andExec m s).sp = s.sp := by simp [andExec]
@[simp] theorem andExec_a (m : Byte) (s : State) : (andExec m s).a = s.a &&& m := by simp [andExec]
@[simp] theorem andExec_x (m : Byte) (s : State) : (andExec m s).x = s.x := by simp [andExec]
@[simp] theorem andExec_y (m : Byte) (s : State) : (andExec m s).y = s.y := by simp [andExec]
@[simp] theorem andExec_mem (m : Byte) (s : State) : (andExec m s).mem = s.mem := by simp [andExec]
@[simp] theorem andExec_fault (m : Byte) (s : State) : (andExec m s).fault = s.fault := by simp [andExec]

@[simp] theorem staExec_pc (ea : Word) (s : State) : (staExec ea s).pc = s.pc := rfl
@[simp] theorem staExec_sp (ea : Word) (s : State) : (staExec ea s).sp = s.sp := rfl
@[simp] theorem staExec_a (ea : Word) (s : State) : (staExec ea s).a = s.a := rfl
@[simp] theorem staExec_x (ea : Word) (s : State) : (staExec ea s).x = s.x := rfl
@[simp] theorem staExec_y (ea : Word) (s : State) : (staExec ea s).y = s.y := rfl
@[simp] theorem staExec_p (ea : Word) (s : State) : (staExec ea s).p = s.p := rfl
@[simp] theorem staExec_mem (ea : Word) (s : State) : (staExec ea s).mem = s.mem.write ea.toNat s.a := rfl
@[simp] theorem staExec_fault (ea : Word) (s : State) : (staExec ea s).fault = s.fault := rfl

end Sys2Proof.Machine
end

