-- ==== Sys2Proof/Laws/Exec.lean ====
section
/-! SUPPORT. What the execute part of an instruction can do, once over all forms. -/

namespace Sys2Proof.Machine

/-- Every form is a load, an ADC or an AND of its operand byte, or a store at its store address. -/
theorem exec_cases (i : Instr) (s : State) :
    (i.mnemonic = .lda ∧ ∃ m, operandByte i s = some m ∧ exec i s = .next (loadInto .a m s)) ∨
    (i.mnemonic = .ldx ∧ ∃ m, operandByte i s = some m ∧ exec i s = .next (loadInto .x m s)) ∨
    (i.mnemonic = .ldy ∧ ∃ m, operandByte i s = some m ∧ exec i s = .next (loadInto .y m s)) ∨
    (i.mnemonic = .adc ∧ ∃ m, operandByte i s = some m ∧ exec i s = .next (adcExec m s)) ∨
    (i.mnemonic = .and ∧ ∃ m, operandByte i s = some m ∧ exec i s = .next (andExec m s)) ∨
    (i.mnemonic = .sta ∧ ∃ ea, storeAddress i s = some ea ∧ exec i s = .next (staExec ea s)) := by
  cases i
  case ldaImm | ldaZp | ldaZpx | ldaAbs | ldaAbsx | ldaAbsy | ldaIndx | ldaIndy => exact .inl ⟨rfl, _, rfl, rfl⟩
  case ldxImm | ldxZp | ldxZpy | ldxAbs | ldxAbsy => exact .inr (.inl ⟨rfl, _, rfl, rfl⟩)
  case ldyImm | ldyZp | ldyZpx | ldyAbs | ldyAbsx => exact .inr (.inr (.inl ⟨rfl, _, rfl, rfl⟩))
  case adcImm | adcZp | adcZpx | adcAbs | adcAbsx | adcAbsy | adcIndx | adcIndy =>
    exact .inr (.inr (.inr (.inl ⟨rfl, _, rfl, rfl⟩)))
  case andImm | andZp | andZpx | andAbs | andAbsx | andAbsy | andIndx | andIndy =>
    exact .inr (.inr (.inr (.inr (.inl ⟨rfl, _, rfl, rfl⟩))))
  case staZp | staZpx | staAbs | staAbsx | staAbsy | staIndx | staIndy =>
    exact .inr (.inr (.inr (.inr (.inr ⟨rfl, _, rfl, rfl⟩))))

end Sys2Proof.Machine
end

