-- ==== Sys2Proof/Laws/Flags.lean ====
section
/-! SUPPORT. What one assignment to a flag does to each bit of P, for the primitives of R27 and the helpers of R33 to R36. -/

namespace Sys2Proof.Machine

theorem flagBit_lt (f : Flag) : flagBit f < 8 := by cases f <;> decide

theorem flagMask_getLsbD (f : Flag) (k : Nat) : (flagMask f).getLsbD k = decide (k = flagBit f) := by
  have hf := flagBit_lt f
  simp only [flagMask, BitVec.getLsbD_shiftLeft, BitVec.getLsbD_one]
  by_cases h : k = flagBit f
  · subst h; simp [hf]
  · simp only [h, decide_false]
    by_cases hk : k < flagBit f
    · simp [hk]
    · have : k - flagBit f ≠ 0 := by omega
      simp [this]

theorem setFlag_getLsbD (f : Flag) (s : State) (k : Nat) :
    (setFlag f s).p.getLsbD k = if k = flagBit f then true else s.p.getLsbD k := by
  by_cases h : k = flagBit f <;> simp [flagMask_getLsbD, h]

theorem clearFlag_getLsbD (f : Flag) (s : State) (k : Nat) :
    (clearFlag f s).p.getLsbD k = if k = flagBit f then false else s.p.getLsbD k := by
  rw [clearFlag_p, BitVec.getLsbD_and, BitVec.getLsbD_not, flagMask_getLsbD]
  by_cases hk : k < 8
  · by_cases h : k = flagBit f <;> simp [h, hk]
  · have hf := flagBit_lt f
    have : k ≠ flagBit f := by omega
    simp [this, BitVec.getLsbD_of_ge, Nat.le_of_not_lt hk]

/-- An assignment to one flag, bit by bit: the flag takes the value, every other bit stays. -/
theorem putFlag_getLsbD (f : Flag) (b : Bool) (s : State) (k : Nat) :
    (putFlag f b s).p.getLsbD k = if k = flagBit f then b else s.p.getLsbD k := by
  cases b
  · exact clearFlag_getLsbD f s k
  · exact setFlag_getLsbD f s k

theorem putFlag_eq (f : Flag) (b : Bool) (s : State) :
    putFlag f b s = { s with p := (putFlag f b s).p } := by
  cases b <;> rfl

/-- Assignments to two different flags can change places (R37). -/
theorem putFlag_comm (f g : Flag) (hne : flagBit f ≠ flagBit g) (b c : Bool) (s : State) :
    putFlag f b (putFlag g c s) = putFlag g c (putFlag f b s) := by
  rw [putFlag_eq f b (putFlag g c s), putFlag_eq g c (putFlag f b s), putFlag_eq g c s, putFlag_eq f b s]
  congr 1
  apply BitVec.eq_of_getLsbD_eq
  intro k _
  simp only [putFlag_getLsbD]
  split <;> split <;> simp_all

theorem handleCFlag_getLsbD (c : Bool) (s : State) (k : Nat) :
    (handleCFlag c s).p.getLsbD k = if k = 0 then c else s.p.getLsbD k := putFlag_getLsbD .carry c s k

theorem handleZFlag_getLsbD (r : Byte) (s : State) (k : Nat) :
    (handleZFlag r s).p.getLsbD k = if k = 1 then r == 0#8 else s.p.getLsbD k :=
  putFlag_getLsbD .zero _ s k

theorem handleNFlag_getLsbD (r : Byte) (s : State) (k : Nat) :
    (handleNFlag r s).p.getLsbD k = if k = 7 then r.getLsbD 7 else s.p.getLsbD k :=
  putFlag_getLsbD .negative _ s k

theorem handleVFlag_getLsbD (v : Byte) (c : Bool) (s : State) (k : Nat) :
    (handleVFlag v c s).p.getLsbD k =
      if k = 6 then decide (v.toNat > if c then 0x80 else 0x7F) else s.p.getLsbD k := by
  rw [handleVFlag, putFlag_getLsbD]
  cases c <;> rfl

/-- P after ADC, bit by bit (R120). -/
theorem adcExec_getLsbD (m : Byte) (s : State) (k : Nat) :
    (adcExec m s).p.getLsbD k =
      if k = 6 then decide ((s.a + m).toNat > if s.p.getLsbD 0 then 0x80 else 0x7F)
      else if k = 7 then (s.a + m).getLsbD 7
      else if k = 1 then (s.a + m) == 0#8
      else if k = 0 then decide (s.a.toNat + m.toNat > 255)
      else s.p.getLsbD k := by
  unfold adcExec adcWith
  simp only [Config.adcCarryIn, Config.vCarrySrc, Bool.false_eq_true, if_false, handleVFlag_getLsbD,
    handleNFlag_getLsbD, handleZFlag_getLsbD, handleCFlag_getLsbD, grSet_p, Nat.add_zero]
  rfl

/-- P after a load or an AND, bit by bit (R31). -/
theorem loadInto_getLsbD (g : Gr) (m : Byte) (s : State) (k : Nat) :
    (loadInto g m s).p.getLsbD k =
      if k = 7 then m.getLsbD 7 else if k = 1 then m == 0#8 else s.p.getLsbD k := by
  simp only [loadInto, handleNFlag_getLsbD, handleZFlag_getLsbD, grSet_p]

theorem andExec_getLsbD (m : Byte) (s : State) (k : Nat) :
    (andExec m s).p.getLsbD k =
      if k = 7 then (s.a &&& m).getLsbD 7 else if k = 1 then (s.a &&& m) == 0#8 else s.p.getLsbD k := by
  simp only [andExec, handleNFlag_getLsbD, handleZFlag_getLsbD, grSet_p]

end Sys2Proof.Machine
end

