-- ==== Sys2Proof/Laws/Memory.lean ====
section
/-! SUPPORT. The laws of the memory list: what a read sees after a write, and that every memory operation keeps the
canonical form. -/

namespace Sys2Proof.Machine

namespace Memory

@[simp] theorem read_nil (k : Nat) : Memory.read [] k = unlistedByte := rfl

theorem read_cons (c : Host.Cell) (m : Memory) (k : Nat) :
    Memory.read (c :: m) k = if c.1 = k then c.2 else Memory.read m k := rfl

theorem eraseCell_cons (c : Host.Cell) (m : Memory) (k : Nat) :
    Memory.eraseCell (c :: m) k = if c.1 = k then m.eraseCell k else c :: m.eraseCell k := by
  by_cases h : c.1 = k <;> simp [Memory.eraseCell, h]

theorem read_eraseCell (m : Memory) (k j : Nat) :
    (m.eraseCell k).read j = if j = k then unlistedByte else m.read j := by
  induction m with
  | nil => simp [Memory.eraseCell]
  | cons c m ih =>
    rw [eraseCell_cons]
    by_cases hc : c.1 = k
    · rw [if_pos hc, ih, read_cons, hc]
      split
      · rfl
      · next hj => rw [if_neg (Ne.symm hj)]
    · rw [if_neg hc, read_cons, read_cons, ih]
      split <;> split <;> simp_all

theorem read_insertCell (m : Memory) (k j : Nat) (v : Byte) (h : m.read k = unlistedByte)
    (hk : ∀ c ∈ m, c.1 ≠ k) : (m.insertCell k v).read j = if j = k then v else m.read j := by
  induction m with
  | nil => simp [Memory.insertCell, read_cons, eq_comm]
  | cons c m ih =>
    have hc : c.1 ≠ k := hk c (by simp)
    have hm : ∀ c' ∈ m, c'.1 ≠ k := fun c' hc' => hk c' (by simp [hc'])
    have hr : Memory.read m k = unlistedByte := by simpa [read_cons, hc] using h
    unfold Memory.insertCell
    split
    · rw [read_cons]; simp only [eq_comm]
    · rw [read_cons, read_cons, ih hr hm]
      split <;> split <;> simp_all

theorem eraseCell_keys (m : Memory) (k : Nat) : ∀ c ∈ m.eraseCell k, c.1 ≠ k := by
  intro c hc
  simpa [Memory.eraseCell] using (List.mem_filter.mp hc).2

/-- What a read sees after a write, for every list: the written value at its address, the old value elsewhere. -/
theorem read_write (m : Memory) (k j : Nat) (v : Byte) :
    (m.write k v).read j = if j = k then v else m.read j := by
  unfold Memory.write
  split
  · next h => rw [read_eraseCell, h]
  · rw [read_insertCell _ _ _ _ (by simp [read_eraseCell]) (eraseCell_keys m k), read_eraseCell]
    split <;> rfl

/-- The canonical form as facts about the list: addresses in strict order, each cell inside the space and listed for a
reason. -/
theorem wf_iff (m : Memory) :
    m.wf = true ↔ m.Pairwise (fun c c' => c.1 < c'.1) ∧ ∀ c ∈ m, c.1 < Config.memSize ∧ c.2 ≠ unlistedByte := by
  have rising : m.rising = true ↔ m.Pairwise (fun c c' => c.1 < c'.1) := by
    induction m with
    | nil => simp [Memory.rising]
    | cons c m ih =>
      cases m with
      | nil => simp [Memory.rising]
      | cons c' m =>
        simp only [Memory.rising, Bool.and_eq_true, decide_eq_true_eq, ih]
        rw [List.pairwise_cons (a := c)]
        constructor
        · rintro ⟨h, hp⟩
          refine ⟨?_, hp⟩
          intro d hd
          rcases List.mem_cons.mp hd with rfl | hd
          · exact h
          · exact lt_trans h ((List.pairwise_cons.mp hp).1 d hd)
        · rintro ⟨h, hp⟩
          exact ⟨h c' (by simp), hp⟩
  simp [Memory.wf, rising]

theorem wf_eraseCell {m : Memory} (h : m.wf = true) (k : Nat) : (m.eraseCell k).wf = true := by
  rw [wf_iff] at h ⊢
  exact ⟨h.1.filter _, fun c hc => h.2 c (List.mem_filter.mp hc).1⟩

theorem mem_insertCell {m : Memory} {k : Nat} {v : Byte} {c : Host.Cell} (h : c ∈ m.insertCell k v) :
    c = (k, v) ∨ c ∈ m := by
  induction m with
  | nil => simpa [Memory.insertCell] using h
  | cons d m ih =>
    unfold Memory.insertCell at h
    split at h
    · simpa using h
    · rcases List.mem_cons.mp h with rfl | h
      · simp
      · rcases ih h with h | h <;> simp [h]

theorem wf_insertCell {m : Memory} (h : m.wf = true) {k : Nat} (hk : k < Config.memSize)
    (hfree : ∀ c ∈ m, c.1 ≠ k) {v : Byte} (hv : v ≠ unlistedByte) : (m.insertCell k v).wf = true := by
  rw [wf_iff] at h ⊢
  refine ⟨?_, fun c hc => ?_⟩
  · obtain ⟨hp, -⟩ := h
    induction m with
    | nil => simp [Memory.insertCell]
    | cons c m ih =>
      obtain ⟨hc, hm⟩ := List.pairwise_cons.mp hp
      unfold Memory.insertCell
      split
      · next hlt =>
        refine List.pairwise_cons.mpr ⟨fun d hd => ?_, hp⟩
        rcases List.mem_cons.mp hd with rfl | hd
        · exact hlt
        · exact lt_trans hlt (hc d hd)
      · next hge =>
        refine List.pairwise_cons.mpr ⟨fun d hd => ?_, ih (fun e he => hfree e (by simp [he])) hm⟩
        rcases mem_insertCell hd with rfl | hd
        · exact lt_of_le_of_ne (Nat.le_of_not_lt hge) (hfree c (by simp))
        · exact hc d hd
  · rcases mem_insertCell hc with rfl | hc
    · exact ⟨hk, hv⟩
    · exact h.2 c hc

/-- A write inside the address space keeps the canonical form. -/
theorem wf_write {m : Memory} (h : m.wf = true) {k : Nat} (hk : k < Config.memSize) (v : Byte) :
    (m.write k v).wf = true := by
  unfold Memory.write
  split
  · exact wf_eraseCell h k
  · next hv => exact wf_insertCell (wf_eraseCell h k) hk (eraseCell_keys m k) hv

end Memory

theorem toNat_lt_memSize (addr : Word) : addr.toNat < Config.memSize := addr.isLt

/-- A read after a write, at the level of the state. -/
theorem memRead_memWrite (b addr : Word) (v : Byte) (s : State) :
    memRead b (memWrite addr v s) = if b = addr then v else memRead b s := by
  simp [memRead, memWrite, Memory.read_write, BitVec.toNat_inj]

/-- `MemWrite` keeps the canonical form. -/
theorem memWrite_wf {s : State} (h : s.mem.wf = true) (addr : Word) (v : Byte) :
    (memWrite addr v s).mem.wf = true :=
  Memory.wf_write h (toNat_lt_memSize addr) v

theorem memReset_wf (s : State) : (memReset s).mem.wf = true := rfl

theorem reset_wf : State.reset.mem.wf = true := rfl

/-- A load's bytes change no field but memory. -/
theorem storeBytes_eq (base : Word) (bytes : List Byte) (s : State) :
    storeBytes base bytes s = { s with mem := (storeBytes base bytes s).mem } := by
  induction bytes generalizing base s with
  | nil => rfl
  | cons b bytes ih => rw [storeBytes, ih]; rfl

/-- Load keeps the canonical form. -/
theorem storeBytes_wf {s : State} (h : s.mem.wf = true) (base : Word) (bytes : List Byte) :
    (storeBytes base bytes s).mem.wf = true := by
  induction bytes generalizing base s with
  | nil => exact h
  | cons b bytes ih => exact ih (memWrite_wf h base b) (base + 1#16)

end Sys2Proof.Machine
end

