-- ==== Sys2Proof/Laws/PerInstr.lean ====
section
/-! SUPPORT. Facts about every form as syntax, one lemma per constructor of `Instr`. -/

namespace Sys2Proof.Laws

/-- The request that names a form is well formed and names that form back (R84, R94, R154). -/
def RequestOk.Statement (i : Instr) : Prop := i.wellFormed = true ∧ i.request.instr? = some i

/-- An encoded form has its format's length, and its first byte is an opcode whose form takes the bytes that follow
(R80, R88). -/
def EncodedBytes.Statement (i : Instr) : Prop :=
  (encode i).length = i.length ∧
    ∃ b form, (encode i).head? = some b ∧ decodeOpcode b = some form ∧ form.operandBytes + 1 = i.length

theorem RequestOk.ldaImm (d : Byte) : RequestOk.Statement (.ldaImm d) := ⟨rfl, rfl⟩
theorem RequestOk.ldaZp (d : Byte) : RequestOk.Statement (.ldaZp d) := ⟨rfl, rfl⟩
theorem RequestOk.ldaZpx (d : Byte) : RequestOk.Statement (.ldaZpx d) := ⟨rfl, rfl⟩
theorem RequestOk.ldaAbs (w : Word) : RequestOk.Statement (.ldaAbs w) := ⟨rfl, rfl⟩
theorem RequestOk.ldaAbsx (w : Word) : RequestOk.Statement (.ldaAbsx w) := ⟨rfl, rfl⟩
theorem RequestOk.ldaAbsy (w : Word) : RequestOk.Statement (.ldaAbsy w) := ⟨rfl, rfl⟩
theorem RequestOk.ldaIndx (d : Byte) : RequestOk.Statement (.ldaIndx d) := ⟨rfl, rfl⟩
theorem RequestOk.ldaIndy (d : Byte) : RequestOk.Statement (.ldaIndy d) := ⟨rfl, rfl⟩
theorem RequestOk.ldxImm (d : Byte) : RequestOk.Statement (.ldxImm d) := ⟨rfl, rfl⟩
theorem RequestOk.ldxZp (d : Byte) : RequestOk.Statement (.ldxZp d) := ⟨rfl, rfl⟩
theorem RequestOk.ldxZpy (d : Byte) : RequestOk.Statement (.ldxZpy d) := ⟨rfl, rfl⟩
theorem RequestOk.ldxAbs (w : Word) : RequestOk.Statement (.ldxAbs w) := ⟨rfl, rfl⟩
theorem RequestOk.ldxAbsy (w : Word) : RequestOk.Statement (.ldxAbsy w) := ⟨rfl, rfl⟩
theorem RequestOk.ldyImm (d : Byte) : RequestOk.Statement (.ldyImm d) := ⟨rfl, rfl⟩
theorem RequestOk.ldyZp (d : Byte) : RequestOk.Statement (.ldyZp d) := ⟨rfl, rfl⟩
theorem RequestOk.ldyZpx (d : Byte) : RequestOk.Statement (.ldyZpx d) := ⟨rfl, rfl⟩
theorem RequestOk.ldyAbs (w : Word) : RequestOk.Statement (.ldyAbs w) := ⟨rfl, rfl⟩
theorem RequestOk.ldyAbsx (w : Word) : RequestOk.Statement (.ldyAbsx w) := ⟨rfl, rfl⟩
theorem RequestOk.adcImm (d : Byte) : RequestOk.Statement (.adcImm d) := ⟨rfl, rfl⟩
theorem RequestOk.adcZp (d : Byte) : RequestOk.Statement (.adcZp d) := ⟨rfl, rfl⟩
theorem RequestOk.adcZpx (d : Byte) : RequestOk.Statement (.adcZpx d) := ⟨rfl, rfl⟩
theorem RequestOk.adcAbs (w : Word) : RequestOk.Statement (.adcAbs w) := ⟨rfl, rfl⟩
theorem RequestOk.adcAbsx (w : Word) : RequestOk.Statement (.adcAbsx w) := ⟨rfl, rfl⟩
theorem RequestOk.adcAbsy (w : Word) : RequestOk.Statement (.adcAbsy w) := ⟨rfl, rfl⟩
theorem RequestOk.adcIndx (d : Byte) : RequestOk.Statement (.adcIndx d) := ⟨rfl, rfl⟩
theorem RequestOk.adcIndy (d : Byte) : RequestOk.Statement (.adcIndy d) := ⟨rfl, rfl⟩
theorem RequestOk.andImm (d : Byte) : RequestOk.Statement (.andImm d) := ⟨rfl, rfl⟩
theorem RequestOk.andZp (d : Byte) : RequestOk.Statement (.andZp d) := ⟨rfl, rfl⟩
theorem RequestOk.andZpx (d : Byte) : RequestOk.Statement (.andZpx d) := ⟨rfl, rfl⟩
theorem RequestOk.andAbs (w : Word) : RequestOk.Statement (.andAbs w) := ⟨rfl, rfl⟩
theorem RequestOk.andAbsx (w : Word) : RequestOk.Statement (.andAbsx w) := ⟨rfl, rfl⟩
theorem RequestOk.andAbsy (w : Word) : RequestOk.Statement (.andAbsy w) := ⟨rfl, rfl⟩
theorem RequestOk.andIndx (d : Byte) : RequestOk.Statement (.andIndx d) := ⟨rfl, rfl⟩
theorem RequestOk.andIndy (d : Byte) : RequestOk.Statement (.andIndy d) := ⟨rfl, rfl⟩
theorem RequestOk.staZp (d : Byte) : RequestOk.Statement (.staZp d) := ⟨rfl, rfl⟩
theorem RequestOk.staZpx (d : Byte) : RequestOk.Statement (.staZpx d) := ⟨rfl, rfl⟩
theorem RequestOk.staAbs (w : Word) : RequestOk.Statement (.staAbs w) := ⟨rfl, rfl⟩
theorem RequestOk.staAbsx (w : Word) : RequestOk.Statement (.staAbsx w) := ⟨rfl, rfl⟩
theorem RequestOk.staAbsy (w : Word) : RequestOk.Statement (.staAbsy w) := ⟨rfl, rfl⟩
theorem RequestOk.staIndx (d : Byte) : RequestOk.Statement (.staIndx d) := ⟨rfl, rfl⟩
theorem RequestOk.staIndy (d : Byte) : RequestOk.Statement (.staIndy d) := ⟨rfl, rfl⟩

theorem EncodedBytes.ldaImm (d : Byte) : EncodedBytes.Statement (.ldaImm d) := ⟨rfl, _, _, rfl, rfl, rfl⟩
theorem EncodedBytes.ldaZp (d : Byte) : EncodedBytes.Statement (.ldaZp d) := ⟨rfl, _, _, rfl, rfl, rfl⟩
theorem EncodedBytes.ldaZpx (d : Byte) : EncodedBytes.Statement (.ldaZpx d) := ⟨rfl, _, _, rfl, rfl, rfl⟩
theorem EncodedBytes.ldaAbs (w : Word) : EncodedBytes.Statement (.ldaAbs w) := ⟨rfl, _, _, rfl, rfl, rfl⟩
theorem EncodedBytes.ldaAbsx (w : Word) : EncodedBytes.Statement (.ldaAbsx w) := ⟨rfl, _, _, rfl, rfl, rfl⟩
theorem EncodedBytes.ldaAbsy (w : Word) : EncodedBytes.Statement (.ldaAbsy w) := ⟨rfl, _, _, rfl, rfl, rfl⟩
theorem EncodedBytes.ldaIndx (d : Byte) : EncodedBytes.Statement (.ldaIndx d) := ⟨rfl, _, _, rfl, rfl, rfl⟩
theorem EncodedBytes.ldaIndy (d : Byte) : EncodedBytes.Statement (.ldaIndy d) := ⟨rfl, _, _, rfl, rfl, rfl⟩
theorem EncodedBytes.ldxImm (d : Byte) : EncodedBytes.Statement (.ldxImm d) := ⟨rfl, _, _, rfl, rfl, rfl⟩
theorem EncodedBytes.ldxZp (d : Byte) : EncodedBytes.Statement (.ldxZp d) := ⟨rfl, _, _, rfl, rfl, rfl⟩
theorem EncodedBytes.ldxZpy (d : Byte) : EncodedBytes.Statement (.ldxZpy d) := ⟨rfl, _, _, rfl, rfl, rfl⟩
theorem EncodedBytes.ldxAbs (w : Word) : EncodedBytes.Statement (.ldxAbs w) := ⟨rfl, _, _, rfl, rfl, rfl⟩
theorem EncodedBytes.ldxAbsy (w : Word) : EncodedBytes.Statement (.ldxAbsy w) := ⟨rfl, _, _, rfl, rfl, rfl⟩
theorem EncodedBytes.ldyImm (d : Byte) : EncodedBytes.Statement (.ldyImm d) := ⟨rfl, _, _, rfl, rfl, rfl⟩
theorem EncodedBytes.ldyZp (d : Byte) : EncodedBytes.Statement (.ldyZp d) := ⟨rfl, _, _, rfl, rfl, rfl⟩
theorem EncodedBytes.ldyZpx (d : Byte) : EncodedBytes.Statement (.ldyZpx d) := ⟨rfl, _, _, rfl, rfl, rfl⟩
theorem EncodedBytes.ldyAbs (w : Word) : EncodedBytes.Statement (.ldyAbs w) := ⟨rfl, _, _, rfl, rfl, rfl⟩
theorem EncodedBytes.ldyAbsx (w : Word) : EncodedBytes.Statement (.ldyAbsx w) := ⟨rfl, _, _, rfl, rfl, rfl⟩
theorem EncodedBytes.adcImm (d : Byte) : EncodedBytes.Statement (.adcImm d) := ⟨rfl, _, _, rfl, rfl, rfl⟩
theorem EncodedBytes.adcZp (d : Byte) : EncodedBytes.Statement (.adcZp d) := ⟨rfl, _, _, rfl, rfl, rfl⟩
theorem EncodedBytes.adcZpx (d : Byte) : EncodedBytes.Statement (.adcZpx d) := ⟨rfl, _, _, rfl, rfl, rfl⟩
theorem EncodedBytes.adcAbs (w : Word) : EncodedBytes.Statement (.adcAbs w) := ⟨rfl, _, _, rfl, rfl, rfl⟩
theorem EncodedBytes.adcAbsx (w : Word) : EncodedBytes.Statement (.adcAbsx w) := ⟨rfl, _, _, rfl, rfl, rfl⟩
theorem EncodedBytes.adcAbsy (w : Word) : EncodedBytes.Statement (.adcAbsy w) := ⟨rfl, _, _, rfl, rfl, rfl⟩
theorem EncodedBytes.adcIndx (d : Byte) : EncodedBytes.Statement (.adcIndx d) := ⟨rfl, _, _, rfl, rfl, rfl⟩
theorem EncodedBytes.adcIndy (d : Byte) : EncodedBytes.Statement (.adcIndy d) := ⟨rfl, _, _, rfl, rfl, rfl⟩
theorem EncodedBytes.andImm (d : Byte) : EncodedBytes.Statement (.andImm d) := ⟨rfl, _, _, rfl, rfl, rfl⟩
theorem EncodedBytes.andZp (d : Byte) : EncodedBytes.Statement (.andZp d) := ⟨rfl, _, _, rfl, rfl, rfl⟩
theorem EncodedBytes.andZpx (d : Byte) : EncodedBytes.Statement (.andZpx d) := ⟨rfl, _, _, rfl, rfl, rfl⟩
theorem EncodedBytes.andAbs (w : Word) : EncodedBytes.Statement (.andAbs w) := ⟨rfl, _, _, rfl, rfl, rfl⟩
theorem EncodedBytes.andAbsx (w : Word) : EncodedBytes.Statement (.andAbsx w) := ⟨rfl, _, _, rfl, rfl, rfl⟩
theorem EncodedBytes.andAbsy (w : Word) : EncodedBytes.Statement (.andAbsy w) := ⟨rfl, _, _, rfl, rfl, rfl⟩
theorem EncodedBytes.andIndx (d : Byte) : EncodedBytes.Statement (.andIndx d) := ⟨rfl, _, _, rfl, rfl, rfl⟩
theorem EncodedBytes.andIndy (d : Byte) : EncodedBytes.Statement (.andIndy d) := ⟨rfl, _, _, rfl, rfl, rfl⟩
theorem EncodedBytes.staZp (d : Byte) : EncodedBytes.Statement (.staZp d) := ⟨rfl, _, _, rfl, rfl, rfl⟩
theorem EncodedBytes.staZpx (d : Byte) : EncodedBytes.Statement (.staZpx d) := ⟨rfl, _, _, rfl, rfl, rfl⟩
theorem EncodedBytes.staAbs (w : Word) : EncodedBytes.Statement (.staAbs w) := ⟨rfl, _, _, rfl, rfl, rfl⟩
theorem EncodedBytes.staAbsx (w : Word) : EncodedBytes.Statement (.staAbsx w) := ⟨rfl, _, _, rfl, rfl, rfl⟩
theorem EncodedBytes.staAbsy (w : Word) : EncodedBytes.Statement (.staAbsy w) := ⟨rfl, _, _, rfl, rfl, rfl⟩
theorem EncodedBytes.staIndx (d : Byte) : EncodedBytes.Statement (.staIndx d) := ⟨rfl, _, _, rfl, rfl, rfl⟩
theorem EncodedBytes.staIndy (d : Byte) : EncodedBytes.Statement (.staIndy d) := ⟨rfl, _, _, rfl, rfl, rfl⟩

end Sys2Proof.Laws
end

