-- ==== Sys2Proof/Laws/Step.lean ====
section
/-! SUPPORT. What a fetch, a step and a host operation can do, once each. -/

namespace Sys2Proof.Machine

/-- `Fetch8` in a state whose PC is `pc`. -/
theorem fetch8_at (pc0 pc : Word) (s : State) :
    fetch8 pc0 { s with pc := pc } =
      if pc = 0xFFFF#16 then .error (.pcOverflow pc0) else .ok (memRead pc s, { s with pc := pc + 1#16 }) := rfl

theorem eq_top_iff (pc : Word) : pc = 0xFFFF#16 ↔ pc.toNat = 0xFFFF := by
  rw [← BitVec.toNat_inj]; rfl

/-- The instruction that a form builds from the two bytes after its opcode byte. -/
def formAt (form : OpcodeForm) (s : State) : Instr :=
  match form with
  | .op8 build => build (memRead (s.pc + 1#16) s)
  | .op16 build => build (wordOfBytes (memRead (s.pc + 1#16) s) (memRead (s.pc + 2#16) s))

theorem fetchOperand_op8 (pc0 pc : Word) (build : Byte → Instr) (s : State) :
    fetchOperand pc0 (.op8 build) { s with pc := pc } =
      if pc = 0xFFFF#16 then .error (.pcOverflow pc0) else .ok (build (memRead pc s), { s with pc := pc + 1#16 }) := by
  simp only [fetchOperand, fetch8_at]
  by_cases h : pc = 0xFFFF#16 <;> simp [h]

theorem fetchOperand_op16 (pc0 pc : Word) (build : Word → Instr) (s : State) :
    fetchOperand pc0 (.op16 build) { s with pc := pc } =
      if pc = 0xFFFF#16 ∨ pc + 1#16 = 0xFFFF#16 then .error (.pcOverflow pc0)
      else .ok (build (wordOfBytes (memRead pc s) (memRead (pc + 1#16) s)), { s with pc := pc + 1#16 + 1#16 }) := by
  simp only [fetchOperand, fetch8_at]
  by_cases h : pc = 0xFFFF#16
  · simp [h]
  · by_cases h' : pc + 1#16 = 0xFFFF#16 <;> simp [h, h', fetch8_at]

/-- The opcode part of a fetch. -/
theorem fetchInstr_below {s : State} (h0 : s.pc.toNat ≠ 0xFFFF) :
    fetchInstr s =
      match decodeOpcode (memRead s.pc s) with
      | none => .error (.illegalOpcode (memRead s.pc s) s.pc)
      | some form => fetchOperand s.pc form { s with pc := s.pc + 1#16 } := by
  have h : fetch8 s.pc s = .ok (memRead s.pc s, { s with pc := s.pc + 1#16 }) :=
    if_neg (fun e => h0 ((eq_top_iff s.pc).mp e))
  cases hd : decodeOpcode (memRead s.pc s) <;> simp only [fetchInstr, h, hd]

/-- The whole fetch in one equation: the opcode fetch, the decode and the operand fetches, in the order of R176. -/
theorem fetchInstr_eq (s : State) :
    fetchInstr s =
      if s.pc.toNat = 0xFFFF then .error (.pcOverflow s.pc)
      else match decodeOpcode (memRead s.pc s) with
        | none => .error (.illegalOpcode (memRead s.pc s) s.pc)
        | some form =>
          if 0xFFFF < s.pc.toNat + (form.operandBytes + 1) then .error (.pcOverflow s.pc)
          else .ok (formAt form s, { s with pc := s.pc + BitVec.ofNat 16 (form.operandBytes + 1) }) := by
  have b0 := s.pc.isLt
  by_cases h0 : s.pc.toNat = 0xFFFF
  · have h : fetch8 s.pc s = .error (.pcOverflow s.pc) := if_pos ((eq_top_iff s.pc).mpr h0)
    simp [fetchInstr, h, h0]
  rw [fetchInstr_below h0, if_neg h0]
  have e1 : (s.pc + 1#16).toNat = s.pc.toNat + 1 := by
    rw [BitVec.toNat_add]; simp only [BitVec.toNat_ofNat]; omega
  cases hf : decodeOpcode (memRead s.pc s) with
  | none => rfl
  | some form =>
    cases form with
    | op8 build =>
      change fetchOperand s.pc (.op8 build) { s with pc := s.pc + 1#16 } = if 0xFFFF < s.pc.toNat + 2 then _ else _
      rw [fetchOperand_op8]
      have w2 : s.pc + 1#16 + 1#16 = s.pc + 2#16 := by rw [BitVec.add_assoc]; rfl
      simp only [eq_top_iff, e1, w2]
      by_cases h1 : s.pc.toNat + 1 = 65535
      · rw [if_pos h1, if_pos (by omega)]
      · rw [if_neg h1, if_neg (by omega)]; rfl
    | op16 build =>
      change fetchOperand s.pc (.op16 build) { s with pc := s.pc + 1#16 } = if 0xFFFF < s.pc.toNat + 3 then _ else _
      rw [fetchOperand_op16]
      have w2 : s.pc + 1#16 + 1#16 = s.pc + 2#16 := by rw [BitVec.add_assoc]; rfl
      have w3 : s.pc + 2#16 + 1#16 = s.pc + 3#16 := by rw [BitVec.add_assoc]; rfl
      simp only [eq_top_iff, e1, w2, w3]
      by_cases h1 : s.pc.toNat + 1 = 65535
      · rw [if_pos (.inl h1), if_pos (by omega)]
      have e2 : (s.pc + 2#16).toNat = s.pc.toNat + 2 := by
        rw [BitVec.toNat_add]; simp only [BitVec.toNat_ofNat]; omega
      by_cases h2 : s.pc.toNat + 2 = 65535
      · rw [if_pos (.inr (e2.trans h2)), if_pos (by omega)]
      · rw [if_neg (fun e => e.elim h1 (fun e => h2 (e2.symm.trans e))), if_neg (by omega)]; rfl

/-- The bytes at PC decode to what the form of the opcode byte builds from the bytes after it. -/
theorem decode_fetchWindow (s : State) :
    decodeOpcode (memRead s.pc s) = none ∧ decode (fetchWindow s) = .error (.illegalOpcode (memRead s.pc s)) ∨
    ∃ form rest, decodeOpcode (memRead s.pc s) = some form ∧ decode (fetchWindow s) = .ok (formAt form s, rest) ∧
      (formAt form s).length = form.operandBytes + 1 := by
  cases hf : decodeOpcode (memRead s.pc s) with
  | none => exact .inl ⟨rfl, by simp [fetchWindow, decode, hf]⟩
  | some form =>
    refine .inr ?_
    cases form with
    | op8 build =>
      have ht : takeOperand (.op8 build) [memRead (s.pc + 1#16) s, memRead (s.pc + 2#16) s] =
        .ok (formAt (.op8 build) s, [memRead (s.pc + 2#16) s]) := rfl
      refine ⟨_, [memRead (s.pc + 2#16) s], rfl, ?_, opcodeForm_length hf ht⟩
      simp only [fetchWindow, decode, hf, ht]
    | op16 build =>
      have ht : takeOperand (.op16 build) [memRead (s.pc + 1#16) s, memRead (s.pc + 2#16) s] =
        .ok (formAt (.op16 build) s, []) := rfl
      refine ⟨_, [], rfl, ?_, opcodeForm_length hf ht⟩
      simp only [fetchWindow, decode, hf, ht]

/-- What a fetch that succeeds has read: the instruction that the three bytes at PC decode to, all of it below the top of
memory, with PC past its bytes and nothing else changed (R155, R156). -/
theorem fetchInstr_ok {s s1 : State} {i : Instr} (h : fetchInstr s = .ok (i, s1)) :
    (∃ rest, decode (fetchWindow s) = .ok (i, rest)) ∧ s.pc.toNat + i.length ≤ 0xFFFF ∧
      s1 = { s with pc := s.pc + BitVec.ofNat 16 i.length } := by
  rw [fetchInstr_eq] at h
  split at h
  · cases h
  obtain ⟨hn, -⟩ | ⟨form, rest, hf, hd, hl⟩ := decode_fetchWindow s
  · rw [hn] at h; cases h
  · simp only [hf] at h
    split at h
    · cases h
    · cases h
      exact ⟨⟨rest, hd⟩, by omega, by rw [hl]⟩

/-- The converse: three bytes at PC that decode, below the top of memory, are fetched. -/
theorem fetchInstr_of_decode {s : State} {i : Instr} {rest : List Byte} (h : decode (fetchWindow s) = .ok (i, rest))
    (hb : s.pc.toNat + i.length ≤ 0xFFFF) :
    fetchInstr s = .ok (i, { s with pc := s.pc + BitVec.ofNat 16 i.length }) := by
  obtain ⟨-, hd⟩ | ⟨form, rest', hf, hd, hl⟩ := decode_fetchWindow s
  · rw [hd] at h; cases h
  · rw [hd] at h
    cases h
    rw [fetchInstr_eq, if_neg (by omega)]
    simp only [hf]
    rw [if_neg (by omega), hl]

/-- The faults of a fetch: PCOverflow near the top of memory, or IllegalOpcode with the byte at PC, each with PC as its
address (R171, R176). -/
theorem fetchInstr_error {s : State} {f : Fault} (h : fetchInstr s = .error f) :
    (f = .pcOverflow s.pc ∧ 0xFFFD ≤ s.pc.toNat) ∨
    (f = .illegalOpcode (memRead s.pc s) s.pc ∧ s.pc ≠ 0xFFFF#16 ∧ decodeOpcode (memRead s.pc s) = none) := by
  rw [fetchInstr_eq] at h
  split at h
  · cases h
    exact .inl ⟨rfl, by omega⟩
  next h0 =>
  obtain ⟨hn, -⟩ | ⟨form, rest, hf, -, -⟩ := decode_fetchWindow s
  · rw [hn] at h
    cases h
    exact .inr ⟨rfl, fun e => h0 ((eq_top_iff s.pc).mp e), hn⟩
  · simp only [hf] at h
    split at h
    · cases h
      refine .inl ⟨rfl, ?_⟩
      cases form <;> simp only [OpcodeForm.operandBytes] at * <;> omega
    · cases h

theorem step_of_fault {s : State} {f : Fault} (h : s.fault = some f) : step s = .next s := by
  simp [step, cycle, h]

theorem step_of_fetchInstr_ok {s s1 : State} {i : Instr} (h : s.fault = none) (hf : fetchInstr s = .ok (i, s1)) :
    step s = exec i s1 := by
  simp [step, cycle, h, hf]

theorem step_of_fetchInstr_error {s : State} {f : Fault} (h : s.fault = none) (hf : fetchInstr s = .error f) :
    step s = .next (raiseFault f s) := by
  simp [step, cycle, h, hf]

/-- Everything a step can do: nothing when a fault is latched; else raise its fetch's fault, or execute what it fetched. -/
theorem step_cases {s t : State} (h : step s = .next t) :
    (s.fault ≠ none ∧ t = s) ∨
    (s.fault = none ∧ ∃ f, fetchInstr s = .error f ∧ t = raiseFault f s) ∨
    (s.fault = none ∧ ∃ i s1, fetchInstr s = .ok (i, s1) ∧ exec i s1 = .next t) := by
  cases hf : s.fault with
  | some f =>
    rw [step_of_fault hf] at h
    cases h
    exact .inl ⟨by simp, rfl⟩
  | none =>
    refine .inr ?_
    cases hi : fetchInstr s with
    | error f =>
      rw [step_of_fetchInstr_error hf hi] at h
      cases h
      exact .inl ⟨rfl, f, rfl, rfl⟩
    | ok r => exact .inr ⟨rfl, r.1, r.2, rfl, by rw [← step_of_fetchInstr_ok hf hi]; exact h⟩

/-- An operation that a faulted engine ignores has its effect on an engine with no fault latched. -/
theorem unlessFaulted_none {s : State} (h : s.fault = none) (effect : Host.Outcome State Fault Refusal) :
    unlessFaulted s effect = effect := by
  simp [unlessFaulted, h]

theorem unlessFaulted_some {s : State} {f : Fault} (h : s.fault = some f) (effect : Host.Outcome State Fault Refusal) :
    unlessFaulted s effect = .next s := by
  simp [unlessFaulted, h]

theorem resetEngine_eq (s : State) : resetEngine s = State.reset := rfl

end Sys2Proof.Machine
end

