-- ==== Sys2Proof/Tests/Slice0.lean ====
section
/-! SUPPORT. The model's own tests. Every expected value stands in spec/: in 95_test_vectors.md, or in the rule a test
names. After them, for each statement of the obligations that has hypotheses, a witness that meets them. -/

open Sys2Proof Sys2Proof.Machine

namespace Sys2Proof.Tests

/-! ### Readings of an outcome -/

def after : Host.Outcome State Fault Refusal → Option State
  | .next s => some s
  | .fault _ => none
  | .refused _ => none

def registers (o : Host.Outcome State Fault Refusal) : Option (Byte × Byte × Byte × Byte) :=
  (after o).map (fun s => (s.a, s.x, s.y, s.p))

def stored (addr : Word) (o : Host.Outcome State Fault Refusal) : Option (Byte × Byte) :=
  (after o).map (fun s => (memRead addr s, s.p))

def pcAndFault (o : Host.Outcome State Fault Refusal) : Option (Word × Option Fault) :=
  (after o).map (fun s => (s.pc, s.fault))

def decoded (bytes : List Byte) : Option Instr :=
  match decode bytes with
  | .ok (i, _) => some i
  | .error _ => none

def okState : Except Fault State → Option State
  | .ok s => some s
  | .error _ => none

def pcOf (r : Except Fault State) : Option Word := (okState r).map State.pc

/-- The reset state with listed cells and PC at `pc`. -/
def at_ (pc : Word) (mem : Memory) : State := { State.reset with pc := pc, mem := mem }

/-! ### WellFormed: an ill-formed request for each check -/

/-- `30_encoding.md` R84: STA has no Immediate form, LDX no ZeroPageX, LDY no IndirectX, LDA no ZeroPageY, AND no ZeroPageY,
ADC no ZeroPageY. -/
theorem test_wellFormed_refuses_pairs_outside_the_matrix :
    Request.wellFormed ⟨.sta, .imm, .byte 0x10#8⟩ = false ∧ Request.wellFormed ⟨.ldx, .zpx, .byte 0x10#8⟩ = false ∧
    Request.wellFormed ⟨.ldy, .indx, .byte 0x10#8⟩ = false ∧ Request.wellFormed ⟨.lda, .zpy, .byte 0x10#8⟩ = false ∧
    Request.wellFormed ⟨.and, .zpy, .byte 0x10#8⟩ = false ∧ Request.wellFormed ⟨.adc, .zpy, .byte 0x10#8⟩ = false := by
  decide

/-- `50_execution.md` R154: an operand of the wrong width is no form. -/
theorem test_wellFormed_refuses_operands_of_another_width :
    Request.wellFormed ⟨.lda, .zp, .word 0x0010#16⟩ = false ∧ Request.wellFormed ⟨.sta, .abs, .byte 0x10#8⟩ = false ∧
    Request.wellFormed ⟨.ldx, .imm, .word 0x0010#16⟩ = false := by
  decide

theorem test_wellFormed_accepts_a_form :
    Request.wellFormed ⟨.lda, .zp, .byte 0x10#8⟩ = true ∧ Request.wellFormed ⟨.sta, .absy, .word 0x0180#16⟩ = true := by
  decide

/-- `50_execution.md` R154: such a request changes nothing. -/
theorem test_invoke_of_no_form_changes_nothing :
    after (perform (.invoke ⟨.sta, .imm, .byte 0x10#8⟩) { State.reset with a := 0x55#8 }) =
      some { State.reset with a := 0x55#8 } := by
  decide

/-! ### Decode -/

/-- `30_encoding.md` R80 to R87: each LDA form, its opcode byte and its operand written out bit by bit. -/
theorem test_decode_lda :
    decoded [0b10101001#8, 0b10000000#8] = some (.ldaImm 0x80#8) ∧
    decoded [0b10100101#8, 0b00000001#8] = some (.ldaZp 0x01#8) ∧
    decoded [0b10110101#8, 0b01111110#8] = some (.ldaZpx 0x7E#8) ∧
    decoded [0b10101101#8, 0b11111110#8, 0b00000000#8] = some (.ldaAbs 0x00FE#16) ∧
    decoded [0b10111101#8, 0b00110100#8, 0b00010010#8] = some (.ldaAbsx 0x1234#16) ∧
    decoded [0b10111001#8, 0b11110000#8, 0b11111111#8] = some (.ldaAbsy 0xFFF0#16) ∧
    decoded [0b10100001#8, 0b10001000#8] = some (.ldaIndx 0x88#8) ∧
    decoded [0b10110001#8, 0b11110001#8] = some (.ldaIndy 0xF1#8) := by
  decide

/-- `30_encoding.md` R80 to R87: each LDX form, its opcode byte and its operand written out bit by bit. -/
theorem test_decode_ldx :
    decoded [0b10100010#8, 0b10000000#8] = some (.ldxImm 0x80#8) ∧
    decoded [0b10100110#8, 0b00000001#8] = some (.ldxZp 0x01#8) ∧
    decoded [0b10110110#8, 0b01111110#8] = some (.ldxZpy 0x7E#8) ∧
    decoded [0b10101110#8, 0b11111110#8, 0b00000000#8] = some (.ldxAbs 0x00FE#16) ∧
    decoded [0b10111110#8, 0b00110100#8, 0b00010010#8] = some (.ldxAbsy 0x1234#16) := by
  decide

/-- `30_encoding.md` R80 to R87: each LDY form, its opcode byte and its operand written out bit by bit. -/
theorem test_decode_ldy :
    decoded [0b10100000#8, 0b10000000#8] = some (.ldyImm 0x80#8) ∧
    decoded [0b10100100#8, 0b00000001#8] = some (.ldyZp 0x01#8) ∧
    decoded [0b10110100#8, 0b01111110#8] = some (.ldyZpx 0x7E#8) ∧
    decoded [0b10101100#8, 0b11111110#8, 0b00000000#8] = some (.ldyAbs 0x00FE#16) ∧
    decoded [0b10111100#8, 0b00110100#8, 0b00010010#8] = some (.ldyAbsx 0x1234#16) := by
  decide

/-- `30_encoding.md` R80 to R87: each ADC form, its opcode byte and its operand written out bit by bit. -/
theorem test_decode_adc :
    decoded [0b01101001#8, 0b10000000#8] = some (.adcImm 0x80#8) ∧
    decoded [0b01100101#8, 0b00000001#8] = some (.adcZp 0x01#8) ∧
    decoded [0b01110101#8, 0b01111110#8] = some (.adcZpx 0x7E#8) ∧
    decoded [0b01101101#8, 0b11111110#8, 0b00000000#8] = some (.adcAbs 0x00FE#16) ∧
    decoded [0b01111101#8, 0b00110100#8, 0b00010010#8] = some (.adcAbsx 0x1234#16) ∧
    decoded [0b01111001#8, 0b11110000#8, 0b11111111#8] = some (.adcAbsy 0xFFF0#16) ∧
    decoded [0b01100001#8, 0b10001000#8] = some (.adcIndx 0x88#8) ∧
    decoded [0b01110001#8, 0b11110001#8] = some (.adcIndy 0xF1#8) := by
  decide

/-- `30_encoding.md` R80 to R87: each AND form, its opcode byte and its operand written out bit by bit. -/
theorem test_decode_and :
    decoded [0b00101001#8, 0b10000000#8] = some (.andImm 0x80#8) ∧
    decoded [0b00100101#8, 0b00000001#8] = some (.andZp 0x01#8) ∧
    decoded [0b00110101#8, 0b01111110#8] = some (.andZpx 0x7E#8) ∧
    decoded [0b00101101#8, 0b11111110#8, 0b00000000#8] = some (.andAbs 0x00FE#16) ∧
    decoded [0b00111101#8, 0b00110100#8, 0b00010010#8] = some (.andAbsx 0x1234#16) ∧
    decoded [0b00111001#8, 0b11110000#8, 0b11111111#8] = some (.andAbsy 0xFFF0#16) ∧
    decoded [0b00100001#8, 0b10001000#8] = some (.andIndx 0x88#8) ∧
    decoded [0b00110001#8, 0b11110001#8] = some (.andIndy 0xF1#8) := by
  decide

/-- `30_encoding.md` R80 to R87: each STA form, its opcode byte and its operand written out bit by bit. -/
theorem test_decode_sta :
    decoded [0b10000101#8, 0b10000000#8] = some (.staZp 0x80#8) ∧
    decoded [0b10010101#8, 0b00000001#8] = some (.staZpx 0x01#8) ∧
    decoded [0b10001101#8, 0b00000001#8, 0b10000000#8] = some (.staAbs 0x8001#16) ∧
    decoded [0b10011101#8, 0b11111110#8, 0b00000000#8] = some (.staAbsx 0x00FE#16) ∧
    decoded [0b10011001#8, 0b00110100#8, 0b00010010#8] = some (.staAbsy 0x1234#16) ∧
    decoded [0b10000001#8, 0b00010000#8] = some (.staIndx 0x10#8) ∧
    decoded [0b10010001#8, 0b10001000#8] = some (.staIndy 0x88#8) := by
  decide

/-- `30_encoding.md` R90 and 95_test_vectors.md 2.11 rows 3 to 6: bytes that are no instruction here. -/
theorem test_decode_refuses_illegal_opcodes :
    decoded [0x00#8, 0x00#8, 0x00#8] = none ∧ decoded [0xEA#8, 0x00#8, 0x00#8] = none ∧
    decoded [0x4C#8, 0x00#8, 0x02#8] = none ∧ decoded [0xA3#8, 0x00#8, 0x00#8] = none ∧
    decoded [0x89#8, 0x10#8, 0x00#8] = none := by
  decide

theorem test_decode_refuses_a_cut_instruction :
    decoded [] = none ∧ decoded [0xA9#8] = none ∧ decoded [0xAD#8, 0x00#8] = none := by decide

/-- `30_encoding.md` R80, R83: the bytes of `LDA #$80` and of `STA $1234`, first byte in the low bits of the table word. -/
theorem test_decodeTableWord_reads_the_first_byte_lowest :
    decodeTableWord 16 0x80A9 = some (.ldaImm 0x80#8) ∧ decodeTableWord 24 0x12348D = some (.staAbs 0x1234#16) ∧
    decodeTableWord 8 0xFFA9 = some (.ldaImm 0x00#8) ∧ decodeTableWord 16 0x00EA = none := by
  decide

/-! ### LDA, one step of the execute part (expected values from 95_test_vectors.md) -/

/-- 95_test_vectors.md 2.6 row 1: `LDA #$00`, zero: Z set, N cleared. -/
theorem test_lda_imm_1 :
    registers (exec (.ldaImm 0x00#8) { State.reset with a := 0x55#8, p := 0x80#8 }) =
      some (0x00#8, 0x00#8, 0x00#8, 0x02#8) := by decide

/-- 95_test_vectors.md 2.6 row 2: `LDA #$80`, negative: N set, Z cleared. -/
theorem test_lda_imm_2 :
    registers (exec (.ldaImm 0x80#8) { State.reset with p := 0x02#8 }) =
      some (0x80#8, 0x00#8, 0x00#8, 0x80#8) := by decide

/-- 95_test_vectors.md 2.6 row 5: `LDA $42`. -/
theorem test_lda_zp_1 :
    registers (exec (.ldaZp 0x42#8) { State.reset with mem := [(0x0042, 0x99#8)] }) =
      some (0x99#8, 0x00#8, 0x00#8, 0x80#8) := by decide

/-- 95_test_vectors.md 2.6 row 6: `LDA $00`, address 0x0000. -/
theorem test_lda_zp_2 :
    registers (exec (.ldaZp 0x00#8) { State.reset with mem := [(0x0000, 0x01#8)] }) =
      some (0x01#8, 0x00#8, 0x00#8, 0x00#8) := by decide

/-- 95_test_vectors.md 2.6 row 7: `LDA $80,X`, wraps to 0x0000, not 0x0100. -/
theorem test_lda_zpx_1 :
    registers (exec (.ldaZpx 0x80#8) { State.reset with x := 0x80#8, mem := [(0x0000, 0x3C#8), (0x0100, 0xEE#8)] }) =
      some (0x3C#8, 0x80#8, 0x00#8, 0x00#8) := by decide

/-- 95_test_vectors.md 2.6 row 8: `LDA $12,X`, EA of example E8. -/
theorem test_lda_zpx_2 :
    registers (exec (.ldaZpx 0x12#8) { State.reset with x := 0x11#8, mem := [(0x0023, 0x30#8)] }) =
      some (0x30#8, 0x11#8, 0x00#8, 0x00#8) := by decide

/-- 95_test_vectors.md 2.6 row 9: `LDA $FFFF`, top byte readable as data. -/
theorem test_lda_abs_1 :
    registers (exec (.ldaAbs 0xFFFF#16) { State.reset with mem := [(0xFFFF, 0x80#8)] }) =
      some (0x80#8, 0x00#8, 0x00#8, 0x80#8) := by decide

/-- 95_test_vectors.md 2.6 row 10: `LDA $01FF`, stack page is ordinary memory. -/
theorem test_lda_abs_2 :
    registers (exec (.ldaAbs 0x01FF#16) { State.reset with a := 0x11#8 }) =
      some (0x00#8, 0x00#8, 0x00#8, 0x02#8) := by decide

/-- 95_test_vectors.md 2.6 row 11: `LDA $FFFF,X`, wraps to 0x0001. -/
theorem test_lda_absx_1 :
    registers (exec (.ldaAbsx 0xFFFF#16) { State.reset with x := 0x02#8, mem := [(0x0001, 0x44#8)] }) =
      some (0x44#8, 0x02#8, 0x00#8, 0x00#8) := by decide

/-- 95_test_vectors.md 2.6 row 12: `LDA $12F0,X`, page crossing. -/
theorem test_lda_absx_2 :
    registers (exec (.ldaAbsx 0x12F0#16) { State.reset with x := 0x20#8, mem := [(0x1310, 0x81#8)] }) =
      some (0x81#8, 0x20#8, 0x00#8, 0x80#8) := by decide

/-- 95_test_vectors.md 2.6 row 13: `LDA $00FF,Y`, 0x0100, does not wrap in page 0. -/
theorem test_lda_absy_1 :
    registers (exec (.ldaAbsy 0x00FF#16) { State.reset with y := 0x01#8, mem := [(0x0000, 0xEE#8), (0x0100, 0x07#8)] }) =
      some (0x07#8, 0x00#8, 0x01#8, 0x00#8) := by decide

/-- 95_test_vectors.md 2.6 row 14: `LDA ($88,X)`, example E5. -/
theorem test_lda_indx_1 :
    registers (exec (.ldaIndx 0x88#8) { State.reset with x := 0x10#8, mem := [(0x0098, 0x34#8), (0x0099, 0x12#8), (0x1234, 0x5A#8)] }) =
      some (0x5A#8, 0x10#8, 0x00#8, 0x00#8) := by decide

/-- 95_test_vectors.md 2.6 row 15: `LDA ($F0,X)`, pointer bytes at 0xFF and 0x00. -/
theorem test_lda_indx_2 :
    registers (exec (.ldaIndx 0xF0#8) { State.reset with x := 0x0F#8, mem := [(0x0000, 0x30#8), (0x3000, 0xC0#8)] }) =
      some (0xC0#8, 0x0F#8, 0x00#8, 0x80#8) := by decide

/-- 95_test_vectors.md 2.6 row 16: `LDA ($86),Y`, example E6; loads zero. -/
theorem test_lda_indy_1 :
    registers (exec (.ldaIndy 0x86#8) { State.reset with a := 0x01#8, y := 0x10#8, mem := [(0x0086, 0x28#8), (0x0087, 0x40#8)] }) =
      some (0x00#8, 0x00#8, 0x10#8, 0x02#8) := by decide

/-- 95_test_vectors.md 2.6 row 17: `LDA ($FF),Y`, pointer at 0xFF wraps (decision D5): base 0x11FF. -/
theorem test_lda_indy_2 :
    registers (exec (.ldaIndy 0xFF#8) { State.reset with y := 0x01#8, mem := [(0x0000, 0x11#8), (0x00FF, 0xFF#8), (0x1200, 0x21#8)] }) =
      some (0x21#8, 0x00#8, 0x01#8, 0x00#8) := by decide

/-! ### LDX, one step of the execute part (expected values from 95_test_vectors.md) -/

/-- 95_test_vectors.md 2.6 row 18: `LDX #$00`, Z set, N cleared, C kept. -/
theorem test_ldx_imm_1 :
    registers (exec (.ldxImm 0x00#8) { State.reset with x := 0x09#8, p := 0x81#8 }) =
      some (0x00#8, 0x00#8, 0x00#8, 0x03#8) := by decide

/-- 95_test_vectors.md 2.6 row 19: `LDX #$FE`. -/
theorem test_ldx_imm_2 :
    registers (exec (.ldxImm 0xFE#8) State.reset) =
      some (0x00#8, 0xFE#8, 0x00#8, 0x80#8) := by decide

/-- 95_test_vectors.md 2.6 row 20: `LDX $10`. -/
theorem test_ldx_zp_1 :
    registers (exec (.ldxZp 0x10#8) { State.reset with mem := [(0x0010, 0x7F#8)] }) =
      some (0x00#8, 0x7F#8, 0x00#8, 0x00#8) := by decide

/-- 95_test_vectors.md 2.6 row 21: `LDX $F0,Y`, indexed by Y; wraps to 0x10. -/
theorem test_ldx_zpy_1 :
    registers (exec (.ldxZpy 0xF0#8) { State.reset with y := 0x20#8, mem := [(0x0010, 0x80#8)] }) =
      some (0x00#8, 0x80#8, 0x20#8, 0x80#8) := by decide

/-- 95_test_vectors.md 2.6 row 22: `LDX $2000`. -/
theorem test_ldx_abs_1 :
    registers (exec (.ldxAbs 0x2000#16) { State.reset with mem := [(0x2000, 0x01#8)] }) =
      some (0x00#8, 0x01#8, 0x00#8, 0x00#8) := by decide

/-- 95_test_vectors.md 2.6 row 23: `LDX $FFF0,Y`, wraps to 0x0000. -/
theorem test_ldx_absy_1 :
    registers (exec (.ldxAbsy 0xFFF0#16) { State.reset with y := 0x10#8, mem := [(0x0000, 0xAA#8)] }) =
      some (0x00#8, 0xAA#8, 0x10#8, 0x80#8) := by decide

/-! ### LDY, one step of the execute part (expected values from 95_test_vectors.md) -/

/-- 95_test_vectors.md 2.6 row 24: `LDY #$80`. -/
theorem test_ldy_imm_1 :
    registers (exec (.ldyImm 0x80#8) State.reset) =
      some (0x00#8, 0x00#8, 0x80#8, 0x80#8) := by decide

/-- 95_test_vectors.md 2.6 row 25: `LDY $FF`. -/
theorem test_ldy_zp_1 :
    registers (exec (.ldyZp 0xFF#8) { State.reset with y := 0x05#8 }) =
      some (0x00#8, 0x00#8, 0x00#8, 0x02#8) := by decide

/-- 95_test_vectors.md 2.6 row 26: `LDY $FF,X`, wraps to 0xFE. -/
theorem test_ldy_zpx_1 :
    registers (exec (.ldyZpx 0xFF#8) { State.reset with x := 0xFF#8, mem := [(0x00FE, 0x12#8)] }) =
      some (0x00#8, 0xFF#8, 0x12#8, 0x00#8) := by decide

/-- 95_test_vectors.md 2.6 row 27: `LDY $0300`. -/
theorem test_ldy_abs_1 :
    registers (exec (.ldyAbs 0x0300#16) { State.reset with mem := [(0x0300, 0xFF#8)] }) =
      some (0x00#8, 0x00#8, 0xFF#8, 0x80#8) := by decide

/-- 95_test_vectors.md 2.6 row 28: `LDY $0300,X`, index 0. -/
theorem test_ldy_absx_1 :
    registers (exec (.ldyAbsx 0x0300#16) { State.reset with x := 0x00#8, mem := [(0x0300, 0x40#8)] }) =
      some (0x00#8, 0x00#8, 0x40#8, 0x00#8) := by decide

/-! ### ADC, one step of the execute part (expected values from 95_test_vectors.md) -/

/-- 95_test_vectors.md 2.7 row 3: largest sum 0x1FE. -/
theorem test_adc_imm_1 :
    registers (exec (.adcImm 0xFF#8) { State.reset with a := 0xFF#8, p := 0x00#8 }) =
      some (0xFE#8, 0x00#8, 0x00#8, 0xC1#8) := by decide

/-- 95_test_vectors.md 2.7 row 6: result 0x80, C before 1: V=0; carry NOT added. -/
theorem test_adc_imm_2 :
    registers (exec (.adcImm 0x01#8) { State.reset with a := 0x7F#8, p := 0x01#8 }) =
      some (0x80#8, 0x00#8, 0x00#8, 0x80#8) := by decide

/-- 95_test_vectors.md 2.7 row 1: `ADC $10`, sum 0x100. -/
theorem test_adc_zp_1 :
    registers (exec (.adcZp 0x10#8) { State.reset with a := 0x10#8, mem := [(0x0010, 0xF0#8)] }) =
      some (0x00#8, 0x00#8, 0x00#8, 0x03#8) := by decide

/-- 95_test_vectors.md 2.7 row 2: `ADC $12,X`, example E8. -/
theorem test_adc_zpx_1 :
    registers (exec (.adcZpx 0x12#8) { State.reset with a := 0x05#8, x := 0x11#8, mem := [(0x0023, 0x30#8)] }) =
      some (0x35#8, 0x11#8, 0x00#8, 0x00#8) := by decide

/-- 95_test_vectors.md 2.7 row 3: `ADC $F0,X`, EA wraps to 0x10; result 0x80. -/
theorem test_adc_zpx_2 :
    registers (exec (.adcZpx 0xF0#8) { State.reset with a := 0x01#8, x := 0x20#8, mem := [(0x0010, 0x7F#8), (0x0110, 0x01#8)] }) =
      some (0x80#8, 0x20#8, 0x00#8, 0xC0#8) := by decide

/-- 95_test_vectors.md 2.7 row 4: `ADC $1234`, 0xFF. -/
theorem test_adc_abs_1 :
    registers (exec (.adcAbs 0x1234#16) { State.reset with a := 0x80#8, mem := [(0x1234, 0x7F#8)] }) =
      some (0xFF#8, 0x00#8, 0x00#8, 0xC0#8) := by decide

/-- 95_test_vectors.md 2.7 row 5: `ADC $FFFF,X`, EA wraps to 0x0000. -/
theorem test_adc_absx_1 :
    registers (exec (.adcAbsx 0xFFFF#16) { State.reset with a := 0x01#8, x := 0x01#8, mem := [(0x0000, 0xFF#8)] }) =
      some (0x00#8, 0x01#8, 0x00#8, 0x03#8) := by decide

/-- 95_test_vectors.md 2.7 row 6: `ADC $0200,Y`. -/
theorem test_adc_absy_1 :
    registers (exec (.adcAbsy 0x0200#16) { State.reset with a := 0x22#8, y := 0xFF#8, mem := [(0x02FF, 0x11#8)] }) =
      some (0x33#8, 0x00#8, 0xFF#8, 0x00#8) := by decide

/-- 95_test_vectors.md 2.7 row 7: `ADC ($88,X)`, EA 0x1234. -/
theorem test_adc_indx_1 :
    registers (exec (.adcIndx 0x88#8) { State.reset with a := 0x01#8, x := 0x10#8, mem := [(0x0098, 0x34#8), (0x0099, 0x12#8), (0x1234, 0x01#8)] }) =
      some (0x02#8, 0x10#8, 0x00#8, 0x00#8) := by decide

/-- 95_test_vectors.md 2.7 row 8: `ADC ($86),Y`, EA 0x4038; sum 0x100; C before 1 not added. -/
theorem test_adc_indy_1 :
    registers (exec (.adcIndy 0x86#8) { State.reset with a := 0xC0#8, y := 0x10#8, p := 0x01#8, mem := [(0x0086, 0x28#8), (0x0087, 0x40#8), (0x4038, 0x40#8)] }) =
      some (0x00#8, 0x00#8, 0x10#8, 0x03#8) := by decide

/-! ### AND, one step of the execute part (expected values from 95_test_vectors.md) -/

/-- 95_test_vectors.md 2.9 row 1: `AND #$0F`, zero result: Z set. -/
theorem test_and_imm_1 :
    registers (exec (.andImm 0x0F#8) { State.reset with a := 0xF0#8 }) =
      some (0x00#8, 0x00#8, 0x00#8, 0x02#8) := by decide

/-- 95_test_vectors.md 2.9 row 2: `AND #$FF`, identity; N set, Z cleared. -/
theorem test_and_imm_2 :
    registers (exec (.andImm 0xFF#8) { State.reset with a := 0x80#8, p := 0x02#8 }) =
      some (0x80#8, 0x00#8, 0x00#8, 0x80#8) := by decide

/-- 95_test_vectors.md 2.9 row 6: `AND $20`. -/
theorem test_and_zp_1 :
    registers (exec (.andZp 0x20#8) { State.reset with a := 0x3C#8, mem := [(0x0020, 0x0F#8)] }) =
      some (0x0C#8, 0x00#8, 0x00#8, 0x00#8) := by decide

/-- 95_test_vectors.md 2.9 row 7: `AND $FF,X`, EA wraps to 0x00. -/
theorem test_and_zpx_1 :
    registers (exec (.andZpx 0xFF#8) { State.reset with a := 0xFF#8, x := 0x01#8, mem := [(0x0000, 0x81#8)] }) =
      some (0x81#8, 0x01#8, 0x00#8, 0x80#8) := by decide

/-- 95_test_vectors.md 2.9 row 8: `AND $FFFF`. -/
theorem test_and_abs_1 :
    registers (exec (.andAbs 0xFFFF#16) { State.reset with a := 0xF0#8, mem := [(0xFFFF, 0x90#8)] }) =
      some (0x90#8, 0x00#8, 0x00#8, 0x80#8) := by decide

/-- 95_test_vectors.md 2.9 row 9: `AND $0100,X`, stack page. -/
theorem test_and_absx_1 :
    registers (exec (.andAbsx 0x0100#16) { State.reset with a := 0x55#8, x := 0xFF#8, mem := [(0x01FF, 0xFF#8)] }) =
      some (0x55#8, 0xFF#8, 0x00#8, 0x00#8) := by decide

/-- 95_test_vectors.md 2.9 row 10: `AND $FFFF,Y`, EA wraps to 0x00FE. -/
theorem test_and_absy_1 :
    registers (exec (.andAbsy 0xFFFF#16) { State.reset with a := 0x0F#8, y := 0xFF#8, mem := [(0x00FE, 0x03#8)] }) =
      some (0x03#8, 0x00#8, 0xFF#8, 0x00#8) := by decide

/-- 95_test_vectors.md 2.9 row 11: `AND ($FF,X)`, pointer at 0x00. -/
theorem test_and_indx_1 :
    registers (exec (.andIndx 0xFF#8) { State.reset with a := 0xFF#8, x := 0x01#8, mem := [(0x0001, 0x20#8), (0x2000, 0x7E#8)] }) =
      some (0x7E#8, 0x01#8, 0x00#8, 0x00#8) := by decide

/-- 95_test_vectors.md 2.9 row 12: `AND ($10),Y`. -/
theorem test_and_indy_1 :
    registers (exec (.andIndy 0x10#8) { State.reset with a := 0xC3#8, y := 0x00#8, mem := [(0x0011, 0x80#8), (0x8000, 0x81#8)] }) =
      some (0x81#8, 0x00#8, 0x00#8, 0x80#8) := by decide

/-! ### STA, one step of the execute part (expected values from 95_test_vectors.md) -/

/-- 95_test_vectors.md 2.10 row 1: `STA $00`, flags untouched. -/
theorem test_sta_zp_1 :
    stored 0x0000#16 (exec (.staZp 0x00#8) { State.reset with a := 0xAB#8, p := 0xC3#8 }) =
      some (0xAB#8, 0xC3#8) := by decide

/-- 95_test_vectors.md 2.10 row 2: `STA $40`, storing zero: Z NOT set. -/
theorem test_sta_zp_2 :
    stored 0x0040#16 (exec (.staZp 0x40#8) { State.reset with a := 0x00#8, mem := [(0x0040, 0x77#8)] }) =
      some (0x00#8, 0x00#8) := by decide

/-- 95_test_vectors.md 2.10 row 3: `STA $80,X`, wraps to 0x0000. -/
theorem test_sta_zpx_1 :
    stored 0x0000#16 (exec (.staZpx 0x80#8) { State.reset with a := 0x11#8, x := 0x80#8 }) =
      some (0x11#8, 0x00#8) := by decide

/-- 95_test_vectors.md 2.10 row 4: `STA $FFFF`, top byte writable. -/
theorem test_sta_abs_1 :
    stored 0xFFFF#16 (exec (.staAbs 0xFFFF#16) { State.reset with a := 0x5A#8 }) =
      some (0x5A#8, 0x00#8) := by decide

/-- 95_test_vectors.md 2.10 row 5: `STA $0042`, absolute form into page 0; N NOT set. -/
theorem test_sta_abs_2 :
    stored 0x0042#16 (exec (.staAbs 0x0042#16) { State.reset with a := 0x80#8 }) =
      some (0x80#8, 0x00#8) := by decide

/-- 95_test_vectors.md 2.10 row 6: `STA $FFFF,X`, wraps to 0x0000. -/
theorem test_sta_absx_1 :
    stored 0x0000#16 (exec (.staAbsx 0xFFFF#16) { State.reset with a := 0x21#8, x := 0x01#8 }) =
      some (0x21#8, 0x00#8) := by decide

/-- 95_test_vectors.md 2.10 row 7: `STA $0180,Y`, stack page, ordinary memory; SP unchanged. -/
theorem test_sta_absy_1 :
    stored 0x01FF#16 (exec (.staAbsy 0x0180#16) { State.reset with a := 0x33#8, y := 0x7F#8 }) =
      some (0x33#8, 0x00#8) := by decide

/-- 95_test_vectors.md 2.10 row 8: `STA ($88,X)`, EA 0x1234. -/
theorem test_sta_indx_1 :
    stored 0x1234#16 (exec (.staIndx 0x88#8) { State.reset with a := 0x44#8, x := 0x10#8, mem := [(0x0098, 0x34#8), (0x0099, 0x12#8)] }) =
      some (0x44#8, 0x00#8) := by decide

/-- 95_test_vectors.md 2.10 row 9: `STA ($00,X)`, pointer 0x0000: the store overwrites the pointer's own low byte. -/
theorem test_sta_indx_2 :
    stored 0x0000#16 (exec (.staIndx 0x00#8) { State.reset with a := 0x99#8, x := 0x00#8 }) =
      some (0x99#8, 0x00#8) := by decide

/-- 95_test_vectors.md 2.10 row 10: `STA ($86),Y`, example E6. -/
theorem test_sta_indy_1 :
    stored 0x4038#16 (exec (.staIndy 0x86#8) { State.reset with a := 0x77#8, y := 0x10#8, mem := [(0x0086, 0x28#8), (0x0087, 0x40#8)] }) =
      some (0x77#8, 0x00#8) := by decide

/-- 95_test_vectors.md 2.10 row 11: `STA ($FE),Y`, 0xFFF0+0x10 wraps to 0x0000. -/
theorem test_sta_indy_2 :
    stored 0x0000#16 (exec (.staIndy 0xFE#8) { State.reset with a := 0x01#8, y := 0x10#8, mem := [(0x00FE, 0xF0#8), (0x00FF, 0xFF#8)] }) =
      some (0x01#8, 0x00#8) := by decide

/-! ### ADC under the other parameter readings (95_test_vectors.md 2.8) -/

/-- Row 6: 0x7F + 0x01 with C before. -/
theorem test_adcWith_row_6 :
    (adcWith false .carryOut 0x01#8 { State.reset with a := 0x7F#8, p := 0x01#8 }).p = 0xC0#8 ∧
    (adcWith true .cBefore 0x01#8 { State.reset with a := 0x7F#8, p := 0x01#8 }).a = 0x81#8 := by decide

/-- Row 11: 0x00 + 0xFF with C before. -/
theorem test_adcWith_row_11 :
    (adcWith true .cBefore 0xFF#8 { State.reset with a := 0x00#8, p := 0x01#8 }).a = 0x00#8 ∧
    (adcWith true .cBefore 0xFF#8 { State.reset with a := 0x00#8, p := 0x01#8 }).p = 0x03#8 := by decide

/-! ### Fetch, decode and faults (95_test_vectors.md 2.11) -/

/-- Row 2: a 3-byte form executes, operand low byte first. -/
theorem test_step_three_byte_form :
    after (step (at_ 0x0000#16 [(0, 0xAD#8), (1, 0x05#8), (5, 0x99#8)])) =
      some { at_ 0x0003#16 [(0, 0xAD#8), (1, 0x05#8), (5, 0x99#8)] with a := 0x99#8, p := 0x80#8 } := by decide

/-- Row 6: 0xA3 is illegal; the byte and its address are recorded and nothing else changes. -/
theorem test_step_illegal_opcode :
    after (step (at_ 0x0200#16 [(0x0200, 0xA3#8)])) =
      some { at_ 0x0200#16 [(0x0200, 0xA3#8)] with fault := some (.illegalOpcode 0xA3#8 0x0200#16) } := by decide

/-- Row 7: STA to its own operand byte executes with the operand already fetched. -/
theorem test_step_store_to_own_operand :
    after (step (at_ 0x0200#16 [(0x0200, 0x8D#8), (0x0201, 0x01#8), (0x0202, 0x02#8)])) =
      some (at_ 0x0203#16 [(0x0200, 0x8D#8), (0x0202, 0x02#8)]) := by decide

/-- Row 8: a 3-byte form at the highest legal start, reading the byte at 0xFFFF as data. -/
theorem test_step_highest_three_byte_start :
    pcAndFault (step (at_ 0xFFFC#16 [(0xFFFC, 0xAD#8), (0xFFFD, 0xFF#8), (0xFFFE, 0xFF#8), (0xFFFF, 0x7E#8)])) =
      some (0xFFFF#16, none) := by decide

/-- Row 9: a 2-byte form at the highest legal start. -/
theorem test_step_highest_two_byte_start :
    pcAndFault (step (at_ 0xFFFD#16 [(0xFFFD, 0xA9#8), (0xFFFE, 0x80#8)])) = some (0xFFFF#16, none) := by decide

/-- Rows 10 and 11: a 3-byte form at 0xFFFD and a 2-byte form at 0xFFFE overflow. -/
theorem test_step_operand_fetch_overflows :
    pcAndFault (step (at_ 0xFFFD#16 [(0xFFFD, 0xAD#8)])) = some (0xFFFD#16, some (.pcOverflow 0xFFFD#16)) ∧
    pcAndFault (step (at_ 0xFFFE#16 [(0xFFFE, 0xA9#8), (0xFFFF, 0x55#8)])) =
      some (0xFFFE#16, some (.pcOverflow 0xFFFE#16)) := by decide

/-- Rows 12 and 13: at 0xFFFE a 3-byte form overflows, and an illegal byte is IllegalOpcode. -/
theorem test_step_at_the_last_opcode_address :
    pcAndFault (step (at_ 0xFFFE#16 [(0xFFFE, 0xAD#8)])) = some (0xFFFE#16, some (.pcOverflow 0xFFFE#16)) ∧
    pcAndFault (step (at_ 0xFFFE#16 [(0xFFFE, 0x02#8)])) =
      some (0xFFFE#16, some (.illegalOpcode 0x02#8 0xFFFE#16)) := by decide

/-- Rows 14 and 15: at 0xFFFF any byte overflows. -/
theorem test_step_at_the_top_byte :
    pcAndFault (step (at_ 0xFFFF#16 [(0xFFFF, 0xA9#8)])) = some (0xFFFF#16, some (.pcOverflow 0xFFFF#16)) ∧
    pcAndFault (step (at_ 0xFFFF#16 [])) = some (0xFFFF#16, some (.pcOverflow 0xFFFF#16)) := by decide

/-- The state of row 3, which the vectors of the faulted engine go on from. -/
def faulted : State := { State.reset with fault := some (.illegalOpcode 0x00#8 0x0000#16) }

/-- Row 3, and the faulted engine of `50_execution.md` R166. -/
theorem test_faulted_engine :
    after (step State.reset) = some faulted ∧ after (step faulted) = some faulted ∧
    after (perform (.invoke (Instr.ldaImm 0x55#8).request) faulted) = some faulted ∧
    after (perform (.load 0x0000#16 [0xA9#8, 0x01#8]) faulted) = some faulted ∧
    after (perform (.jump 0x0200#16) faulted) = some faulted ∧
    after (perform .reset faulted) = some State.reset := by decide

/-! ### Reset, direct operation and the host port -/

/-- The state of 95_test_vectors.md 2.12. -/
def used : State :=
  { pc := 0xFFFF#16, sp := 0x00#8, a := 0xAA#8, x := 0xBB#8, y := 0xCC#8, p := 0xFF#8,
    mem := [(0x0000, 0xA9#8), (0x01FF, 0x12#8), (0xFFFF, 0x34#8)], fault := some (.pcOverflow 0xFFFF#16) }

theorem test_reset_of_a_used_engine :
    after (perform .reset used) = some State.reset ∧ after (perform .reset State.reset) = some State.reset := by decide

/-- 95_test_vectors.md 2.13: direct operation leaves PC alone, at 0xFFFF too. -/
theorem test_invoke_leaves_pc :
    pcAndFault (perform (.invoke (Instr.ldaAbs 0xFFFF#16).request) (at_ 0x1234#16 [])) = some (0x1234#16, none) ∧
    pcAndFault (perform (.invoke (Instr.adcImm 0x01#8).request) (at_ 0xFFFF#16 [])) = some (0xFFFF#16, none) := by decide

/-- `50_execution.md` R160: Load wraps past the top of memory. -/
theorem test_load_wraps :
    after (perform (.load 0xFFFF#16 [0xA9#8, 0x01#8]) State.reset) =
      some { State.reset with mem := [(0x0000, 0x01#8), (0xFFFF, 0xA9#8)] } := by decide

/-- The boot sequence of `70_reset_and_hazards.md` R194, with step 1 of program 4 in 95_test_vectors.md. -/
theorem test_boot_and_first_step :
    registers (runOps [.reset, .load 0xFFF7#16 [0xA2#8, 0x07#8, 0xBD#8], .jump 0xFFF7#16, .tick] used) =
      some (0x00#8, 0x07#8, 0x00#8, 0x00#8) := by decide

/-- `50_execution.md` R162, R163: read-back and the flag dump of P = 0x83. -/
theorem test_read_back :
    readBack { State.reset with a := 0x11#8, p := 0x83#8 } =
      { a := 0x11#8, x := 0x00#8, y := 0x00#8, sp := 0xFF#8, pc := 0x0000#16, p := 0x83#8, fault := none } ∧
    (flagDump { State.reset with p := 0x83#8 }).map Prod.snd = [true, true, false, false, false, false, true] := by decide

/-! ### Primitives (95_test_vectors.md 2.1 to 2.5) -/

theorem test_handle_flags_set_and_clear :
    (handleCFlag false { State.reset with p := 0xFF#8 }).p = 0xFE#8 ∧
    (handleZFlag 0x80#8 { State.reset with p := 0xFF#8 }).p = 0xFD#8 ∧
    (handleNFlag 0x00#8 { State.reset with p := 0xFF#8 }).p = 0x7F#8 ∧
    (handleNFlag 0x80#8 State.reset).p = 0x80#8 := by decide

theorem test_handle_v_flag_thresholds :
    (handleVFlag 0x80#8 false State.reset).p = 0x40#8 ∧ (handleVFlag 0x80#8 true { State.reset with p := 0x40#8 }).p = 0x00#8 ∧
    (handleVFlag 0x81#8 true State.reset).p = 0x40#8 ∧ (handleVFlag 0x7F#8 false State.reset).p = 0x00#8 := by decide

/-- `10_state.md` R26, R27: one flag of P, and all of it. -/
theorem test_status_register_primitives :
    (setFlag .overflow State.reset).p = 0x40#8 ∧ (clearFlag .negative { State.reset with p := 0xFF#8 }).p = 0x7F#8 ∧
    isFlagSet .decimal { State.reset with p := 0x08#8 } = true ∧ (pSet 0x20#8 State.reset).p = 0x20#8 ∧
    pGet { State.reset with p := 0xA5#8 } = 0xA5#8 ∧ (pReset { State.reset with p := 0xFF#8 }).p = 0x00#8 := by decide

theorem test_stack_pointer :
    spPush { State.reset with sp := 0x00#8 } = (0x0000#16, { State.reset with sp := 0xFF#8 }) ∧
    spPop State.reset = (0x0000#16, { State.reset with sp := 0x00#8 }) ∧ stackAddress 0x00FF#16 = 0x01FF#16 := by decide

theorem test_pc_increase_and_decrease :
    pcOf (pcIncrease 0xFF#8 (at_ 0xFF00#16 [])) = some 0xFFFF#16 ∧ pcOf (pcIncrease 0xFF#8 (at_ 0xFF01#16 [])) = none ∧
    pcOf (pcDecrease 0xFF#8 (at_ 0x00FF#16 [])) = some 0x0000#16 ∧ pcOf (pcDecrease 0xFF#8 (at_ 0x00FE#16 [])) = none := by
  decide

theorem test_latched_primitive_error :
    latchError State.reset (pcDecrease 0x01#8 State.reset) =
      { State.reset with fault := some (.pcUnderflow 0x0000#16) } := by decide

theorem test_general_register_wraps :
    (grIncrement .x { State.reset with x := 0xFF#8, p := 0x41#8 }) = { State.reset with p := 0x41#8 } ∧
    (grDecrement .y State.reset).y = 0xFF#8 ∧ (grReset .a { State.reset with a := 0x5A#8 }).a = 0x00#8 := by decide

/-- The memory of the indirect rows of 2.5. -/
def pointers : Memory :=
  [(0x00, 0x11#8), (0x01, 0x22#8), (0x11, 0x80#8), (0x86, 0x28#8), (0x87, 0x40#8), (0x98, 0x34#8), (0x99, 0x12#8),
   (0xFE, 0xF0#8), (0xFF, 0xFF#8)]

theorem test_indirect_addresses :
    eaIndx 0x88#8 { State.reset with x := 0x10#8, mem := pointers } = 0x1234#16 ∧
    eaIndx 0xF0#8 { State.reset with x := 0x0F#8, mem := pointers } = 0x11FF#16 ∧
    eaIndy 0x86#8 { State.reset with y := 0x10#8, mem := pointers } = 0x4038#16 ∧
    eaIndy 0xFF#8 { State.reset with y := 0x01#8, mem := pointers } = 0x1200#16 ∧
    eaIndy 0xFE#8 { State.reset with y := 0x10#8, mem := pointers } = 0x0000#16 := by decide

theorem test_indexed_addresses :
    eaZpx 0x80#8 { State.reset with x := 0x80#8 } = 0x0000#16 ∧ eaZpy 0xF0#8 { State.reset with y := 0x20#8 } = 0x0010#16 ∧
    eaAbsx 0x00FF#16 { State.reset with x := 0x01#8 } = 0x0100#16 ∧
    eaAbsy 0xFFF0#16 { State.reset with y := 0x10#8 } = 0x0000#16 := by decide

/-- `20_memory.md` R53 on the canonical list: writing 0x00 takes the cell out, so equal memories are equal lists. -/
theorem test_write_keeps_the_canonical_form :
    (memWrite 0x0010#16 0x00#8 (at_ 0x0000#16 [(0x0010, 0x55#8)])).mem = [] ∧
    (memWrite 0x0010#16 0x66#8 (at_ 0x0000#16 [(0x0001, 0x55#8), (0x0020, 0x77#8)])).mem =
      [(0x0001, 0x55#8), (0x0010, 0x66#8), (0x0020, 0x77#8)] := by decide

/-- The host's placing of one instruction, from reset and from a faulted engine at the top of memory (log entry 6). -/
theorem test_withFetchWord_runs_next :
    registers (step (State.reset.withFetchWord 16 0x80A9)) = some (0x80#8, 0x00#8, 0x00#8, 0x80#8) ∧
    pcAndFault (step (used.withFetchWord 24 0x1234AD)) = some (0x0003#16, none) := by decide

/-! ### Witnesses: for each statement with hypotheses, values that meet them -/

/-- `LDA #$80` in the two bytes up to 0xFFFE, the highest place a 2-byte form runs. -/
def lastTwoByte : State := at_ 0xFFFD#16 [(0xFFFD, 0xA9#8), (0xFFFE, 0x80#8)]

/-- `LDA $FFFF` in the three bytes up to 0xFFFE, the highest place a 3-byte form runs. -/
def lastThreeByte : State := at_ 0xFFFC#16 [(0xFFFC, 0xAD#8), (0xFFFD, 0xFF#8), (0xFFFE, 0xFF#8), (0xFFFF, 0x7E#8)]

/-- An illegal byte at 0xFFFE. -/
def illegalAtLast : State := at_ 0xFFFE#16 [(0xFFFE, 0x02#8)]

def overflowed : State := { lastThreeByte with pc := 0xFFFF#16, fault := some (.pcOverflow 0xFFFF#16) }

theorem test_witness_program_counter_ranges :
    (0xFF00#16 : Word).toNat + (0xFF#8 : Byte).toNat = 0xFFFF ∧ (0xFF01#16 : Word).toNat + (0xFF#8 : Byte).toNat = 0xFFFF + 1 ∧
    (0xFF#8 : Byte).toNat ≤ (0x00FF#16 : Word).toNat ∧ (0x00FE#16 : Word).toNat < (0xFF#8 : Byte).toNat := by decide

theorem test_witness_fetch_in_both_cases :
    (at_ 0xFFFF#16 []).pc = 0xFFFF#16 ∧ illegalAtLast.pc ≠ 0xFFFF#16 := by decide

theorem test_witness_overflow_threshold : (0x81#8 : Byte) ≠ 0x80#8 := by decide

theorem test_witness_canonical_memories :
    Memory.wf [(0x0000, 0x01#8), (0xFFFF, 0xFF#8)] = true ∧
    ∀ a : Word, Memory.read [(0x0000, 0x01#8), (0xFFFF, 0xFF#8)] a.toNat = Memory.read [(0x0000, 0x01#8), (0xFFFF, 0xFF#8)] a.toNat :=
  ⟨by decide, fun _ => rfl⟩

theorem test_witness_decoded_word :
    decode [0x8D#8, 0xFF#8, 0xFF#8, 0x00#8] = .ok (.staAbs 0xFFFF#16, [0x00#8]) := rfl

theorem test_witness_ill_formed_request : Request.wellFormed ⟨.sta, .imm, .byte 0x00#8⟩ = false := by decide

/-- A fetch of a 2-byte form of each of the six mnemonics, at the highest place it runs. -/
theorem test_witness_fetched_forms :
    lastTwoByte.fault = none ∧
    fetchInstr lastTwoByte = .ok (.ldaImm 0x80#8, { lastTwoByte with pc := 0xFFFF#16 }) ∧
    (∀ op i, (op, i) ∈ [(0xA2#8, Instr.ldxImm 0x80#8), (0xA0#8, .ldyImm 0x80#8), (0x69#8, .adcImm 0x80#8),
        (0x29#8, .andImm 0x80#8), (0x85#8, .staZp 0x80#8)] →
      fetchInstr (at_ 0xFFFD#16 [(0xFFFD, op), (0xFFFE, 0x80#8)]) =
        .ok (i, { at_ 0xFFFD#16 [(0xFFFD, op), (0xFFFE, 0x80#8)] with pc := 0xFFFF#16 })) := by
  refine ⟨rfl, rfl, ?_⟩
  intro op i h
  simp only [List.mem_cons, Prod.mk.injEq, List.not_mem_nil, or_false] at h
  obtain ⟨rfl, rfl⟩ | ⟨rfl, rfl⟩ | ⟨rfl, rfl⟩ | ⟨rfl, rfl⟩ | ⟨rfl, rfl⟩ := h <;> rfl

theorem test_witness_executed_load_and_store :
    exec (.ldxZp 0xFF#8) State.reset = .next { State.reset with p := 0x02#8 } ∧
    exec (.staZp 0xFF#8) { State.reset with a := 0x80#8 } = .next { State.reset with a := 0x80#8, mem := [(0xFF, 0x80#8)] } ∧
    (Instr.staZp 0xFF#8).mnemonic = .sta ∧ storeAddress (.staZp 0xFF#8) { State.reset with a := 0x80#8 } = some 0x00FF#16 := by
  refine ⟨rfl, rfl, rfl, rfl⟩

theorem test_witness_decoded_at_pc :
    lastTwoByte.fault = none ∧ decode (fetchWindow lastTwoByte) = .ok (.ldaImm 0x80#8, [0x00#8]) ∧
    lastTwoByte.pc.toNat + (Instr.ldaImm 0x80#8).length = 0xFFFF ∧
    decode (fetchWindow lastThreeByte) = .ok (.ldaAbs 0xFFFF#16, []) ∧
    lastThreeByte.pc.toNat + (Instr.ldaAbs 0xFFFF#16).length = 0xFFFF := ⟨rfl, rfl, rfl, rfl, rfl⟩

/-- One witness per clause of the fault rule; the third for both formats, each at the lowest start that overflows. -/
theorem test_witness_faulting_starts :
    ((at_ 0xFFFF#16 []).fault = none ∧ (at_ 0xFFFF#16 []).pc = 0xFFFF#16) ∧
    (illegalAtLast.fault = none ∧ illegalAtLast.pc ≠ 0xFFFF#16 ∧
      (decodeOpcode (memRead illegalAtLast.pc illegalAtLast)).isNone = true) ∧
    ∀ s form, (s, form) ∈ [(at_ 0xFFFE#16 [(0xFFFE, 0xA9#8)], OpcodeForm.op8 .ldaImm),
        (at_ 0xFFFD#16 [(0xFFFD, 0xAD#8)], OpcodeForm.op16 .ldaAbs)] →
      s.fault = none ∧ s.pc ≠ 0xFFFF#16 ∧ decodeOpcode (memRead s.pc s) = some form ∧
        s.pc.toNat + form.operandBytes + 1 = 0xFFFF + 1 := by
  refine ⟨by decide, by decide, ?_⟩
  intro s form h
  simp only [List.mem_cons, Prod.mk.injEq, List.not_mem_nil, or_false] at h
  obtain ⟨rfl, rfl⟩ | ⟨rfl, rfl⟩ := h <;> exact ⟨rfl, by decide, rfl, rfl⟩

theorem test_witness_raising_step :
    step illegalAtLast = .next { illegalAtLast with fault := some (.illegalOpcode 0x02#8 0xFFFE#16) } ∧
    step (at_ 0xFFFF#16 []) = .next { at_ 0xFFFF#16 [] with fault := some (.pcOverflow 0xFFFF#16) } := ⟨rfl, rfl⟩

theorem test_witness_faulted_state : faulted.fault ≠ none ∧ overflowed.fault ≠ none := by decide

theorem test_witness_step_without_fault :
    step lastTwoByte = .next { lastTwoByte with pc := 0xFFFF#16, a := 0x80#8, p := 0x80#8 } := rfl

theorem test_witness_invariant_and_step :
    EngineInv lastThreeByte ∧ step lastThreeByte = .next { lastThreeByte with pc := 0xFFFF#16, a := 0x7E#8 } :=
  ⟨⟨by decide, rfl, rfl, trivial⟩, rfl⟩

/-- The invariant holds in a faulted state too, and fails in one whose latch says what is not so. -/
theorem test_witness_invariant_of_faulted_states :
    EngineInv faulted ∧ EngineInv overflowed ∧ ¬ EngineInv { overflowed with pc := 0x0000#16 } :=
  ⟨⟨by decide, rfl, rfl, rfl, by decide, rfl, rfl⟩, ⟨by decide, rfl, rfl, rfl, by decide⟩, fun h => absurd h.2.2.2.1 (by decide)⟩

theorem test_witness_run_of_host_operations :
    EngineInv State.reset ∧
    runOps [.load 0x0000#16 [0xA9#8, 0x05#8], .tick, .invoke (Instr.staZp 0xFF#8).request] State.reset =
      .next { State.reset with pc := 0x0002#16, a := 0x05#8, mem := [(0x0000, 0xA9#8), (0x0001, 0x05#8), (0x00FF, 0x05#8)] } :=
  ⟨⟨by decide, rfl, rfl, trivial⟩, rfl⟩

theorem test_witness_states_that_differ_in_flags :
    SameButFlags lastTwoByte { lastTwoByte with p := 0xFF#8 } ∧ lastTwoByte ≠ { lastTwoByte with p := 0xFF#8 } := by decide

theorem test_witness_states_that_differ_in_unused_bits :
    SameButUnused lastTwoByte { lastTwoByte with sp := 0x00#8, p := 0x3C#8 } ∧
    lastTwoByte ≠ { lastTwoByte with sp := 0x00#8, p := 0x3C#8 } := by decide

theorem test_witness_load_across_the_top :
    State.reset.fault = none ∧ [0xA9#8, 0x01#8].length ≤ 65536 ∧ [0xA9#8, 0x01#8][1]? = some 0x01#8 ∧
    ∀ k, k < [0xA9#8, 0x01#8].length → (0x0001#16 : Word) ≠ 0xFFFF#16 + BitVec.ofNat 16 k := by decide

theorem test_witness_highest_loaded_instruction :
    (0xFFFC#16 : Word).toNat + (Instr.ldaAbs 0xFFFF#16).length = 0xFFFF ∧
    (0xFFFD#16 : Word).toNat + (Instr.ldaImm 0x80#8).length = 0xFFFF := by decide

theorem test_witness_placed_word : decodeTableWord 24 0xFFFF9D = some (.staAbsx 0xFFFF#16) := by decide

end Sys2Proof.Tests
end

/-! ## The state's registers and flags (`10_state.md`): proofs -/

namespace Sys2Proof.Machine

/-! ### The arithmetic of a byte -/

theorem toNat_byte_add_one (v : Byte) : (v + 1#8).toNat = (v.toNat + 1) % 256 := BitVec.toNat_add v 1#8

theorem toNat_byte_sub_one (v : Byte) : (v - 1#8).toNat = (v.toNat + 255) % 256 := by
  rw [BitVec.toNat_sub, Nat.add_comm]
  rfl

theorem byte_beq_zero (v : Byte) : (v == 0#8) = decide (v.toNat = 0) :=
  (beq_eq_decide v 0#8).trans (decide_eq_decide.mpr BitVec.toNat_eq)

/-- Bit 7 of a byte is the unsigned comparison with 128, the form in which R35 and R36 meet. -/
theorem byte_getLsbD_seven (v : Byte) : v.getLsbD 7 = decide (128 ≤ v.toNat) :=
  (BitVec.msb_eq_getLsbD_last v).symm.trans (BitVec.msb_eq_decide v)

/-! ### The stack pointer and the stack page (R18 to R21) -/

/-- A pop undoes a push: it returns the pushed pointer and gives the state back (R20). -/
theorem spPop_spPush (s : State) : spPop (spPush s).2 = ((spPush s).1, s) := by
  have hsp : s.sp - 1#8 + 1#8 = s.sp := BitVec.sub_add_cancel s.sp 1#8
  simp [spPop, spPush, hsp]

theorem stackAddress_zext16_toNat (v : Byte) : (stackAddress (zext16 v)).toNat = 0x0100 + v.toNat := by
  have hv : v.toNat < 256 := v.isLt
  have hbase : Config.stackBase.toNat = 0x0100 := rfl
  rw [stackAddress, BitVec.toNat_add, zext16_toNat, hbase]
  omega

/-- Settles O6: the bytes are added modulo 256, and a pop after a push adds back the 1 it took away. -/
theorem stackPointerPushAndPop : Obligations.StackPointerPushAndPop := by
  intro s
  refine ⟨⟨zext16_toNat s.sp, rfl, toNat_byte_sub_one s.sp⟩, ⟨?_, rfl, toNat_byte_add_one s.sp⟩, ?_⟩
  · exact (zext16_toNat (s.sp + 1#8)).trans (toNat_byte_add_one s.sp)
  · rw [spPop_spPush]
    exact ⟨rfl, rfl⟩

/-- Settles O7: the address of the zero-extended pointer is 0x0100 plus a byte, so it never carries out of the page. -/
theorem stackSlotsLieInTheStackPage : Obligations.StackSlotsLieInTheStackPage := by
  intro s
  have hsp : s.sp.toNat < 256 := s.sp.isLt
  have hpush : (stackAddress (spPush s).1).toNat = 0x0100 + s.sp.toNat := stackAddress_zext16_toNat s.sp
  have hpop : (stackAddress (spPop s).1).toNat = 0x0100 + (s.sp.toNat + 1) % 256 := by
    rw [← toNat_byte_add_one]
    exact stackAddress_zext16_toNat (s.sp + 1#8)
  refine ⟨hpush, hpop, ?_⟩
  omega

/-! ### The general registers (R23, R24) -/

/-- Settles O8: reset, increment and decrement are each one `grSet`, whose value the byte arithmetic gives. -/
theorem generalRegisterPrimitives : Obligations.GeneralRegisterPrimitives := by
  refine ⟨fun s v => ⟨rfl, rfl, rfl⟩, fun s => ⟨rfl, rfl, rfl⟩, fun g s => ⟨rfl, ?increment, ?decrement⟩⟩
  case increment => exact ⟨grGet g s + 1#8, rfl, toNat_byte_add_one (grGet g s)⟩
  case decrement => exact ⟨grGet g s - 1#8, rfl, toNat_byte_sub_one (grGet g s)⟩

/-! ### The composite flag helpers (R33 to R37) -/

theorem handleCFlag_eq (c : Bool) (s : State) : handleCFlag c s = { s with p := (handleCFlag c s).p } :=
  putFlag_eq .carry c s

theorem handleZFlag_eq (r : Byte) (s : State) : handleZFlag r s = { s with p := (handleZFlag r s).p } :=
  putFlag_eq .zero _ s

theorem handleNFlag_eq (r : Byte) (s : State) : handleNFlag r s = { s with p := (handleNFlag r s).p } :=
  putFlag_eq .negative _ s

theorem handleVFlag_eq (v : Byte) (c : Bool) (s : State) :
    handleVFlag v c s = { s with p := (handleVFlag v c s).p } :=
  putFlag_eq .overflow _ s

/-- V after `handle_v_flag` is the comparison with the threshold, whatever V held before (R36). -/
theorem isFlagSet_overflow_handleVFlag (v : Byte) (c : Bool) (s : State) :
    isFlagSet .overflow (handleVFlag v c s) = decide (v.toNat > if c then 0x80 else 0x7F) :=
  handleVFlag_getLsbD v c s 6

/-- Settles O10: each helper is an assignment to one flag, and assignments to different bits of P commute. -/
theorem flagHelpersAreTotalAssignments : Obligations.FlagHelpersAreTotalAssignments := by
  refine ⟨fun c s => ⟨handleCFlag_eq c s, handleCFlag_getLsbD c s⟩, fun r s => ⟨handleZFlag_eq r s, fun k => ?zero⟩,
    fun r s => ⟨handleNFlag_eq r s, fun k => ?negative⟩,
    fun v c s => ⟨handleVFlag_eq v c s, handleVFlag_getLsbD v c s⟩, fun c z n v w s => ?commute⟩
  case zero => rw [handleZFlag_getLsbD, byte_beq_zero]
  case negative => rw [handleNFlag_getLsbD, byte_getLsbD_seven]
  case commute =>
    exact ⟨putFlag_comm .carry .zero (by decide) _ _ s, putFlag_comm .carry .negative (by decide) _ _ s,
      putFlag_comm .carry .overflow (by decide) _ _ s, putFlag_comm .zero .negative (by decide) _ _ s,
      putFlag_comm .zero .overflow (by decide) _ _ s, putFlag_comm .negative .overflow (by decide) _ _ s⟩

/-- Settles O11: the thresholds 0x7F and 0x80 part no byte but 0x80, and being above 0x7F is bit 7. -/
theorem overflowFlagFollowsTheThreshold : Obligations.OverflowFlagFollowsTheThreshold := by
  intro v c s
  refine ⟨handleVFlag_eq v c s, ?frame, ?threshold, ?bitSeven, ?agree, ?differ⟩
  case frame =>
    intro k hk
    rw [handleVFlag_getLsbD, if_neg hk]
  case threshold => simp [isFlagSet_overflow_handleVFlag]
  case bitSeven => exact (isFlagSet_overflow_handleVFlag v false s).trans (byte_getLsbD_seven v).symm
  case agree =>
    intro hv
    have hne : v.toNat ≠ 0x80 := fun h => hv (BitVec.eq_of_toNat_eq h)
    have hiff : 0x80 < v.toNat ↔ 0x7F < v.toNat := by omega
    simp [isFlagSet_overflow_handleVFlag, hiff]
  case differ => exact isFlagSet_overflow_handleVFlag 0x80#8 true s

end Sys2Proof.Machine

/-! ## Memory and the addressing modes (`20_memory.md`): proofs -/

namespace Sys2Proof.Machine

/-- The page-0 address of a byte, in the spelling of the statements about pointers. -/
theorem zext16_eq_ofNat_toNat (v : Byte) : zext16 v = BitVec.ofNat 16 v.toNat := (BitVec.ofNat_toNat 16 v).symm

/-- The little-endian pointer at a zero-page address, whose high byte wraps within page 0 (R55, R66, R67). -/
theorem zeroPagePointer_toNat (ptr : Byte) (s : State) :
    (zeroPagePointer ptr s).toNat =
      (memRead (BitVec.ofNat 16 ((ptr.toNat + 1) % 256)) s).toNat * 256 +
        (memRead (BitVec.ofNat 16 ptr.toNat) s).toNat := by
  rw [zeroPagePointer, wordOfBytes_toNat, zext16_eq_ofNat_toNat, zext16_eq_ofNat_toNat, toNat_byte_add_one]

/-- Settles O16: the pointer stands at the byte d + X, and wrapping before the 1 is added loses nothing modulo 256. -/
theorem preIndexedPointerIsReadInPageZero : Obligations.PreIndexedPointerIsReadInPageZero := by
  intro d s
  have hptr : (d + s.x).toNat = (d.toNat + s.x.toNat) % 256 := BitVec.toNat_add d s.x
  rw [eaIndx, zeroPagePointer_toNat, hptr, Nat.mod_add_mod]

end Sys2Proof.Machine

/-! ## The encoding (`30_encoding.md`): proofs -/

namespace Sys2Proof

/-! ### Decode after encode -/

theorem decode_encodeOp8 {opcode : Byte} {build : Byte → Instr} (h : decodeOpcode opcode = some (.op8 build))
    (d : Byte) (rest : List Byte) : decode (encodeOp8 opcode d ++ rest) = .ok (build d, rest) := by
  simp [encodeOp8, decode, h, takeOperand]

theorem decode_encodeOp16 {opcode : Byte} {build : Word → Instr} (h : decodeOpcode opcode = some (.op16 build))
    (w : Word) (rest : List Byte) : decode (encodeOp16 opcode w ++ rest) = .ok (build w, rest) := by
  simp [encodeOp16, decode, h, takeOperand, wordOfBytes_lo_hi]

/-- Settles O20: the opcode byte finds its row again, and the operand's bytes put it together again. -/
theorem decodingAnEncodedInstructionGivesItBack : Obligations.DecodingAnEncodedInstructionGivesItBack := by
  intro i rest
  cases i
  case ldaAbs | ldaAbsx | ldaAbsy | ldxAbs | ldxAbsy | ldyAbs | ldyAbsx | adcAbs | adcAbsx | adcAbsy | andAbs | andAbsx |
      andAbsy | staAbs | staAbsx | staAbsy =>
    exact decode_encodeOp16 rfl _ rest
  all_goals exact decode_encodeOp8 rfl _ rest

/-! ### Encode after decode -/

/-- The encoder writes a row's opcode byte before the operand of every instruction that the row builds. -/
def OpcodeRow.IsEncoded (r : OpcodeRow) : Prop :=
  match r.form with
  | .op8 build => ∀ d, encode (build d) = encodeOp8 r.opcode d
  | .op16 build => ∀ w, encode (build w) = encodeOp16 r.opcode w

theorem opcodeTable_isEncoded : ∀ r ∈ opcodeTable, r.IsEncoded := by
  simp [opcodeTable, ldaRows, ldxRows, ldyRows, adcRows, andRows, staRows, OpcodeRow.IsEncoded, encode]

/-- What `takeOperand` takes for a row's form is what the encoder writes after the row's opcode byte. -/
theorem OpcodeRow.IsEncoded.encode_takeOperand {r : OpcodeRow} (hr : r.IsEncoded) {tail rest : List Byte} {i : Instr}
    (h : takeOperand r.form tail = .ok (i, rest)) : encode i ++ rest = r.opcode :: tail := by
  unfold OpcodeRow.IsEncoded at hr
  cases hf : r.form with
  | op8 build =>
    rw [hf] at h hr
    match tail, h with
    | d :: _, h =>
      cases h
      rw [hr]
      rfl
  | op16 build =>
    rw [hf] at h hr
    match tail, h with
    | l :: u :: _, h =>
      cases h
      rw [hr, encodeOp16, loByte_wordOfBytes, hiByte_wordOfBytes]
      rfl

/-- Settles O21: a decoded word came through a row of the table, and each row encodes what it builds. -/
theorem everyDecodedWordIsTheEncodingOfItsInstruction :
    Obligations.EveryDecodedWordIsTheEncodingOfItsInstruction := by
  intro bytes rest i h
  obtain ⟨b, tail, form, rfl, hform, htake⟩ := decode_ok h
  obtain ⟨r, hr, rfl, rfl⟩ := decodeOpcode_some hform
  exact ((opcodeTable_isEncoded r hr).encode_takeOperand htake).symm

/-! ### The legal opcode bytes -/

theorem decodeOpcode_isSome_iff (b : Byte) :
    (decodeOpcode b).isSome = true ↔ b.toNat ∈ opcodeTable.map (fun r => r.opcode.toNat) := by
  simp [decodeOpcode, List.find?_isSome, BitVec.toNat_inj]

/-- Settles O18: the list is the opcode column of the table in another order. -/
theorem exactlyTheListedOpcodesAreLegal : Obligations.ExactlyTheListedOpcodesAreLegal := by
  have hperm : (opcodeTable.map (fun r => r.opcode.toNat)).Perm Reference.legalOpcodes := by decide
  refine ⟨rfl, by decide, fun b => ?_⟩
  rw [Bool.eq_iff_iff, decodeOpcode_isSome_iff, hperm.mem_iff, decide_eq_true_eq]

/-- Settles O19: each word is the encoding of its instruction, with nothing after it. -/
theorem writtenOutWordsDecode : Obligations.WrittenOutWordsDecode :=
  have back := decodingAnEncodedInstructionGivesItBack
  ⟨back (.ldaImm 0x80#8) [], back (.ldxZpy 0xFF#8) [], back (.ldyAbsx 0x2001#16) [], back (.adcAbsy 0xFFF0#16) [],
    back (.andIndy 0x40#8) [], back (.staIndx 0x88#8) [], back (.staAbs 0x1234#16) [], back (.andZpx 0xFF#8) [],
    back (.adcZp 0x10#8) []⟩

/-! ### Requests (R94, R154) -/

namespace Request

/-- The matrix of R84 and the width of the operand say together whether a request names a form. -/
theorem wellFormed_eq_isSome (r : Request) : r.wellFormed = r.instr?.isSome := by
  obtain ⟨mn, md, x⟩ := r
  cases mn <;> cases md <;> cases x <;> rfl

theorem request_of_instr? {r : Request} {i : Instr} (h : r.instr? = some i) : i.request = r := by
  obtain ⟨mn, md, x⟩ := r
  cases mn <;> cases md <;> cases x <;> cases h <;> rfl

end Request

theorem Instr.instr?_request (i : Instr) : i.request.instr? = some i := by
  cases i <;> rfl

end Sys2Proof

namespace Sys2Proof.Machine

theorem perform_invoke_of_none {r : Request} (h : r.instr? = none) (s : State) :
    perform (.invoke r) s = .next s := by
  have hinvoke : invoke r s = .next s := by simp [invoke, h]
  cases hs : s.fault with
  | none => exact (unlessFaulted_none hs _).trans hinvoke
  | some f => exact unlessFaulted_some hs _

/-- An invocation of a form, in an engine with no fault latched, is the execute part of the form (R152). -/
theorem perform_invoke_of_some {r : Request} {i : Instr} (h : r.instr? = some i) {s : State} (hs : s.fault = none) :
    perform (.invoke r) s = exec i s := by
  have hinvoke : invoke r s = exec i s := by simp [invoke, h]
  exact (unlessFaulted_none hs _).trans hinvoke

/-- Settles O22: a request is well formed exactly when it names a form, and then it is that form's request. -/
theorem onlyTheFormsCanBeInvoked : Obligations.OnlyTheFormsCanBeInvoked := by
  refine ⟨fun r s hr => perform_invoke_of_none ?_ s, fun r => ?_⟩
  · rwa [Request.wellFormed_eq_isSome, Option.isSome_eq_false_iff, Option.isNone_iff_eq_none] at hr
  · rw [Request.wellFormed_eq_isSome, Option.isSome_iff_exists]
    exact ⟨fun ⟨i, hi⟩ => ⟨i, hi, Request.request_of_instr? hi⟩, fun ⟨i, hi, _⟩ => ⟨i, hi⟩⟩

end Sys2Proof.Machine

/-! ## The program counter, the fetch and the flag primitives (`10_state.md`): proofs -/

namespace Sys2Proof.Machine

theorem toNat_ofNat_word {n : Nat} (h : n < 65536) : (BitVec.ofNat 16 n).toNat = n :=
  (BitVec.toNat_ofNat n 16).trans (Nat.mod_eq_of_lt h)

/-- Below the top of memory an address grows by the exact amount (R15). -/
theorem toNat_word_add {w : Word} {n : Nat} (h : w.toNat + n ≤ 0xFFFF) :
    (w + BitVec.ofNat 16 n).toNat = w.toNat + n := by
  rw [BitVec.toNat_add, BitVec.toNat_ofNat]
  omega

theorem toNat_add_one_of_ne_top {w : Word} (h : w ≠ 0xFFFF#16) : (w + 1#16).toNat = w.toNat + 1 := by
  have hne : w.toNat ≠ 0xFFFF := fun e => h ((eq_top_iff w).mpr e)
  have hlt : w.toNat < 65536 := w.isLt
  exact toNat_word_add (by omega)

/-- Settles O4: each guard is the exact comparison, and behind it the sum or difference fits in 16 bits. -/
theorem programCounterMovesExactlyOrRaises : Obligations.ProgramCounterMovesExactlyOrRaises := by
  refine ⟨fun s n h => ⟨_, if_neg (by omega), rfl, ?sum⟩, fun s n h => if_pos h,
    fun s n h => ⟨_, if_neg (by omega), rfl, ?difference⟩, fun s n h => if_pos h, fun s addr => rfl⟩
  case sum => exact toNat_ofNat_word (by omega)
  case difference =>
    have hpc : s.pc.toNat < 65536 := s.pc.isLt
    have hfits : (BitVec.ofNat 16 (s.pc.toNat - n.toNat)).toNat = s.pc.toNat - n.toNat :=
      toNat_ofNat_word (by omega)
    rw [hfits]
    omega

theorem fetch8_of_ne_top {s : State} (h : s.pc ≠ 0xFFFF#16) (pc0 : Word) :
    fetch8 pc0 s = .ok (memRead s.pc s, { s with pc := s.pc + 1#16 }) :=
  if_neg h

/-- Settles O5, by the one comparison of `Fetch8`. -/
theorem fetchReadsTheByteAtPcAndAdvances : Obligations.FetchReadsTheByteAtPcAndAdvances := by
  intro s pc0
  exact ⟨fun h => if_pos h, fun h => ⟨_, fetch8_of_ne_top h pc0, rfl, toNat_add_one_of_ne_top h⟩⟩

/-- Settles O9: setting and clearing are masks of one bit. -/
theorem flagPrimitivesChangeExactlyOneBit : Obligations.FlagPrimitivesChangeExactlyOneBit :=
  ⟨rfl, fun f s => ⟨rfl, rfl, rfl, setFlag_getLsbD f s, clearFlag_getLsbD f s⟩⟩

/-! ### The engine's reset (`70_reset_and_hazards.md` section 1) -/

theorem perform_reset (s : State) : perform .reset s = .next State.reset :=
  congrArg Host.Outcome.next (resetEngine_eq s)

theorem memRead_reset (addr : Word) : memRead addr State.reset = 0x00#8 := Memory.read_nil addr.toNat

/-- Settles O1: Reset forgets the state it meets, and the reset state lists its own values. -/
theorem resetFromAnyStateGivesTheResetTable : Obligations.ResetFromAnyStateGivesTheResetTable :=
  ⟨perform_reset, rfl, rfl, rfl, rfl, rfl, rfl, memRead_reset, rfl⟩

/-- Settles O2: the two component resets are record updates, and Reset gives the reset state. -/
theorem resetClearsStatusAndErasesMemory : Obligations.ResetClearsStatusAndErasesMemory := by
  intro s
  refine ⟨rfl, fun addr => Memory.read_nil addr.toNat, rfl, State.reset, perform_reset s, fun k => ?_, memRead_reset⟩
  exact BitVec.getLsbD_zero

end Sys2Proof.Machine

/-! ## Memory and the addressing modes, continued (`20_memory.md`): proofs -/

namespace Sys2Proof.Machine

/-- Settles O12: the read after a write compares the two addresses. -/
theorem writeChangesExactlyOneCell : Obligations.WriteChangesExactlyOneCell :=
  fun s addr v => ⟨rfl, fun b => memRead_memWrite b addr v s⟩

/-- Settles O36: the fetch is a read at PC, the address just written. -/
theorem fetchSeesTheLatestStore : Obligations.FetchSeesTheLatestStore := by
  intro s v pc0 h
  have hread : memRead s.pc (memWrite s.pc v s) = v := by rw [memRead_memWrite, if_pos rfl]
  refine ⟨{ memWrite s.pc v s with pc := s.pc + 1#16 }, ?_, toNat_add_one_of_ne_top h, rfl⟩
  rw [fetch8_of_ne_top (by simpa using h), memWrite_pc, hread]

/-! ### The canonical form has one list for each memory -/

namespace Memory

/-- The order of the canonical form. -/
def CellBefore (c c' : Host.Cell) : Prop := c.1 < c'.1

theorem cellBefore_irrefl : Std.Irrefl CellBefore := ⟨fun c h => lt_irrefl c.1 h⟩

theorem cellBefore_antisymm : Std.Antisymm CellBefore := ⟨fun _ _ h h' => absurd h' (lt_asymm h)⟩

/-- In a list of rising addresses every listed cell is the one that its address reads. -/
theorem read_of_mem {m : Memory} (h : m.Pairwise CellBefore) {c : Host.Cell} (hc : c ∈ m) : m.read c.1 = c.2 := by
  induction m with
  | nil => cases hc
  | cons d m ih =>
    obtain ⟨hd, hm⟩ := List.pairwise_cons.mp h
    rw [read_cons]
    rcases List.mem_cons.mp hc with rfl | hc
    · rw [if_pos rfl]
    · rw [if_neg (ne_of_lt (hd c hc)), ih hm hc]

theorem mem_of_read_ne {m : Memory} {k : Nat} (h : m.read k ≠ unlistedByte) : (k, m.read k) ∈ m := by
  induction m with
  | nil => exact absurd (read_nil k) h
  | cons d m ih =>
    rw [read_cons] at h ⊢
    by_cases hd : d.1 = k
    · rw [if_pos hd, ← hd]
      exact List.mem_cons_self
    · rw [if_neg hd] at h ⊢
      exact List.mem_cons_of_mem d (ih h)

/-- The cells of a canonical list are what its reads say: an address of the space, and the byte there unless it is the
byte of an unlisted cell. -/
theorem mem_iff_read {m : Memory} (h : m.wf = true) (c : Host.Cell) :
    c ∈ m ↔ ∃ a : Word, a.toNat = c.1 ∧ m.read a.toNat = c.2 ∧ c.2 ≠ unlistedByte := by
  obtain ⟨hrising, hcells⟩ := (wf_iff m).mp h
  constructor
  · intro hc
    obtain ⟨hspace, hlisted⟩ := hcells c hc
    have ha : (BitVec.ofNat 16 c.1).toNat = c.1 := toNat_ofNat_word hspace
    exact ⟨BitVec.ofNat 16 c.1, ha, by rw [ha]; exact read_of_mem hrising hc, hlisted⟩
  · rintro ⟨a, ha, hread, hlisted⟩
    have hmem := mem_of_read_ne (hread.trans_ne hlisted)
    rwa [hread, ha] at hmem

end Memory

/-- Settles O13: the reads determine the cells, and rising order leaves one list for a set of cells. -/
theorem canonicalMemoriesThatReadAlikeAreEqual : Obligations.CanonicalMemoriesThatReadAlikeAreEqual := by
  intro m m' hm hm' hread
  have := Memory.cellBefore_irrefl
  have := Memory.cellBefore_antisymm
  obtain ⟨hrising, -⟩ := (Memory.wf_iff m).mp hm
  obtain ⟨hrising', -⟩ := (Memory.wf_iff m').mp hm'
  refine List.Pairwise.eq_of_mem_iff (r := Memory.CellBefore) hrising hrising' fun c => ?_
  simp only [Memory.mem_iff_read hm, Memory.mem_iff_read hm', hread]

/-! ### The effective addresses -/

/-- Settles O14: the byte sum wraps at 256, and zero-extension keeps its number. -/
theorem zeroPageModesStayInPageZero : Obligations.ZeroPageModesStayInPageZero := by
  intro d s
  exact ⟨zext16_toNat d, (zext16_toNat _).trans (BitVec.toNat_add d s.x),
    (zext16_toNat _).trans (BitVec.toNat_add d s.y)⟩

/-- A word plus a zero-extended index, as natural numbers (R64, R65, R67). -/
theorem toNat_add_zext16 (w : Word) (v : Byte) : (w + zext16 v).toNat = (w.toNat + v.toNat) % 65536 := by
  rw [BitVec.toNat_add, zext16_toNat]

/-- Settles O15: the index is zero-extended and the sum is one of words. -/
theorem absoluteModesWrapAtTheTop : Obligations.AbsoluteModesWrapAtTheTop :=
  fun w s => ⟨rfl, toNat_add_zext16 w s.x, toNat_add_zext16 w s.y⟩

/-- Settles O17: the pointer's closed form, with Y added as to any word. -/
theorem postIndexedAddsYToThePointer : Obligations.PostIndexedAddsYToThePointer := by
  intro d s
  rw [eaIndy, toNat_add_zext16, zeroPagePointer_toNat]

end Sys2Proof.Machine

/-! ## The instruction families (`41_load.md` to `44_store.md`): proofs -/

namespace Sys2Proof.Machine

open Reference

/-! ### The closed forms of the reference are the model's operations -/

theorem ite_flagMask_getLsbD (f : Flag) (c : Prop) [Decidable c] (k : Nat) :
    (if c then flagMask f else 0#8).getLsbD k = (decide c && decide (k = flagBit f)) := by
  by_cases h : c <;> simp [h, flagMask_getLsbD]

/-- The mask form that takes Z and N from `r` and keeps every other bit (R31, R34, R35), bit by bit. -/
theorem zn_getLsbD (p r : Byte) {k : Nat} (hk : k < 8) :
    (zn p r).getLsbD k = if k = 7 then r.getLsbD 7 else if k = 1 then r == 0#8 else p.getLsbD k := by
  by_cases hr : r = 0#8 <;> interval_cases k <;> simp [zn, hr]

/-- V's closed form is the comparison with the threshold of R36. -/
theorem overflow_eq_threshold (s : State) (r : Byte) :
    overflow s r = decide (r.toNat > if s.p.getLsbD 0 then 0x80 else 0x7F) := by
  have h80 : (r == 0x80#8) = decide (r.toNat = 0x80) :=
    (beq_eq_decide r _).trans (decide_eq_decide.mpr BitVec.toNat_eq)
  rw [overflow, byte_getLsbD_seven, h80, Bool.eq_iff_iff]
  cases s.p.getLsbD 0 <;> simp <;> omega

theorem sum_eq_add (s : State) (m : Byte) : sum s m = s.a + m :=
  BitVec.eq_of_toNat_eq (by simp [sum, BitVec.toNat_add])

theorem loadInto_p (g : Gr) (m : Byte) (s : State) : (loadInto g m s).p = zn s.p m := by
  apply BitVec.eq_of_getLsbD_eq
  intro k hk
  rw [loadInto_getLsbD, zn_getLsbD _ _ hk]

theorem loadInto_a_eq (m : Byte) (s : State) : loadInto .a m s = afterLda m s := by
  ext1 <;> simp [afterLda, loadInto_p]

theorem loadInto_x_eq (m : Byte) (s : State) : loadInto .x m s = afterLdx m s := by
  ext1 <;> simp [afterLdx, loadInto_p]

theorem loadInto_y_eq (m : Byte) (s : State) : loadInto .y m s = afterLdy m s := by
  ext1 <;> simp [afterLdy, loadInto_p]

theorem andExec_p (m : Byte) (s : State) : (andExec m s).p = zn s.p (s.a &&& m) := by
  apply BitVec.eq_of_getLsbD_eq
  intro k hk
  rw [andExec_getLsbD, zn_getLsbD _ _ hk]

theorem andExec_eq (m : Byte) (s : State) : andExec m s = afterAnd m s := by
  ext1 <;> simp [afterAnd, andExec_p]

theorem adcExec_p (m : Byte) (s : State) : (adcExec m s).p = (afterAdc m s).p := by
  apply BitVec.eq_of_getLsbD_eq
  intro k hk
  have hcarry : (if s.a.toNat + m.toNat > 255 then 0x01#8 else 0#8).getLsbD k =
      (decide (s.a.toNat + m.toNat > 255) && decide (k = 0)) := ite_flagMask_getLsbD .carry _ k
  have hoverflow : (if overflow s (s.a + m) then 0x40#8 else 0#8).getLsbD k =
      (decide (overflow s (s.a + m) = true) && decide (k = 6)) := ite_flagMask_getLsbD .overflow _ k
  rw [adcExec_getLsbD, ← overflow_eq_threshold, afterAdc, sum_eq_add, BitVec.getLsbD_or, BitVec.getLsbD_or,
    BitVec.getLsbD_and, zn_getLsbD s.p _ hk, hcarry, hoverflow]
  interval_cases k <;> simp

theorem adcExec_eq (m : Byte) (s : State) : adcExec m s = afterAdc m s := by
  ext1
  case p => exact adcExec_p m s
  all_goals simp [afterAdc, sum_eq_add]

/-! ### What every execute part does and leaves unchanged -/

theorem exec_completes (i : Instr) (s : State) : ∃ t, exec i s = .next t := by
  obtain ⟨-, m, -, h⟩ | ⟨-, m, -, h⟩ | ⟨-, m, -, h⟩ | ⟨-, m, -, h⟩ | ⟨-, m, -, h⟩ | ⟨-, ea, -, h⟩ := exec_cases i s <;>
    exact ⟨_, h⟩

/-- Settles O28, over the six families: the fields of the state after each are those before, but for what it writes. -/
theorem registerAndMemoryFrameOfEachFamily : Obligations.RegisterAndMemoryFrameOfEachFamily := by
  intro i s t ht
  obtain ⟨hmn, m, -, h⟩ | ⟨hmn, m, -, h⟩ | ⟨hmn, m, -, h⟩ | ⟨hmn, m, -, h⟩ | ⟨hmn, m, -, h⟩ | ⟨hmn, ea, -, h⟩ :=
    exec_cases i s <;>
  · cases h.symm.trans ht
    simp [hmn, memRead]

theorem exec_pc {i : Instr} {s t : State} (h : exec i s = .next t) : t.pc = s.pc := by
  obtain ⟨hpc, -⟩ := registerAndMemoryFrameOfEachFamily i s t h
  exact hpc

theorem exec_sp {i : Instr} {s t : State} (h : exec i s = .next t) : t.sp = s.sp := by
  obtain ⟨-, hsp, -⟩ := registerAndMemoryFrameOfEachFamily i s t h
  exact hsp

theorem exec_fault {i : Instr} {s t : State} (h : exec i s = .next t) : t.fault = s.fault := by
  obtain ⟨-, -, hfault, -⟩ := registerAndMemoryFrameOfEachFamily i s t h
  exact hfault

/-- Settles O27: P after a load or an AND is the mask form, P after ADC is known bit by bit, and a store keeps it. -/
theorem eachFamilyWritesExactlyItsFlags : Obligations.EachFamilyWritesExactlyItsFlags := by
  intro i s
  obtain ⟨hmn, m, -, h⟩ | ⟨hmn, m, -, h⟩ | ⟨hmn, m, -, h⟩ | ⟨hmn, m, hm, h⟩ | ⟨hmn, m, -, h⟩ | ⟨hmn, ea, -, h⟩ :=
    exec_cases i s
  all_goals
    refine ⟨_, h, ?_⟩
    simp only [hmn]
  case inr.inr.inr.inl => -- ADC
    rw [adcExec_a]
    exact ⟨m, hm, adcExec_getLsbD m s 0, (adcExec_getLsbD m s 1).trans (beq_eq_decide _ _), adcExec_getLsbD m s 7,
      adcExec_getLsbD m s 6, fun k h0 h1 h6 h7 => by
        rw [adcExec_getLsbD, if_neg h6, if_neg h7, if_neg h1, if_neg h0]⟩
  all_goals simp [loadInto_p, andExec_p]

/-- PC in the two drive modes, the same for every mnemonic: an execute part keeps it, and the fetch before it is exact. -/
theorem pcRule (mn : Mnemonic) : PcRule mn := by
  intro i s _ hs
  refine ⟨?_, fun s1 hf => ?_⟩
  · obtain ⟨t, ht⟩ := exec_completes i s
    exact ⟨t, (perform_invoke_of_some i.instr?_request hs).trans ht, exec_pc ht⟩
  · obtain ⟨-, hbound, rfl⟩ := fetchInstr_ok hf
    obtain ⟨t, ht⟩ := exec_completes i { s with pc := s.pc + BitVec.ofNat 16 i.length }
    exact ⟨t, (step_of_fetchInstr_ok hs hf).trans ht, by rw [exec_pc ht, toNat_word_add hbound]⟩

/-- Settles O23: each form is `loadInto` of its operand byte, in the closed form. -/
theorem loadsCopyTheOperandAndSetZeroAndNegative : Obligations.LoadsCopyTheOperandAndSetZeroAndNegative := by
  have lda m s := congrArg (Host.Outcome.next (φ := Fault) (ρ := Refusal)) (loadInto_a_eq m s)
  have ldx m s := congrArg (Host.Outcome.next (φ := Fault) (ρ := Refusal)) (loadInto_x_eq m s)
  have ldy m s := congrArg (Host.Outcome.next (φ := Fault) (ρ := Refusal)) (loadInto_y_eq m s)
  exact ⟨fun s _ => lda _ s, fun s _ => lda _ s, fun s _ => lda _ s, fun s _ => lda _ s, fun s _ => lda _ s,
    fun s _ => lda _ s, fun s _ => lda _ s, fun s _ => lda _ s, fun s _ => ldx _ s, fun s _ => ldx _ s,
    fun s _ => ldx _ s, fun s _ => ldx _ s, fun s _ => ldx _ s, fun s _ => ldy _ s, fun s _ => ldy _ s,
    fun s _ => ldy _ s, fun s _ => ldy _ s, fun s _ => ldy _ s, pcRule .lda, pcRule .ldx, pcRule .ldy⟩

/-- Settles O24: each form is `adcExec` of its operand byte, in the closed form. -/
theorem adcAddsWithoutCarryInAndSetsFourFlags : Obligations.AdcAddsWithoutCarryInAndSetsFourFlags := by
  have adc m s := congrArg (Host.Outcome.next (φ := Fault) (ρ := Refusal)) (adcExec_eq m s)
  exact ⟨fun s _ => adc _ s, fun s _ => adc _ s, fun s _ => adc _ s, fun s _ => adc _ s, fun s _ => adc _ s,
    fun s _ => adc _ s, fun s _ => adc _ s, fun s _ => adc _ s, pcRule .adc⟩

/-- Settles O25: each form is `andExec` of its operand byte, in the closed form, and a mask of a number is at most either. -/
theorem andMasksTheAccumulatorAndSetsZeroAndNegative : Obligations.AndMasksTheAccumulatorAndSetsZeroAndNegative := by
  have and m s := congrArg (Host.Outcome.next (φ := Fault) (ρ := Refusal)) (andExec_eq m s)
  have bound (s : State) (m : Byte) :
      (afterAnd m s).a.toNat ≤ s.a.toNat ∧ (afterAnd m s).a.toNat ≤ m.toNat := by
    rw [afterAnd, BitVec.toNat_and]
    exact ⟨Nat.and_le_left, Nat.and_le_right⟩
  exact ⟨fun s _ => and _ s, fun s _ => and _ s, fun s _ => and _ s, fun s _ => and _ s, fun s _ => and _ s,
    fun s _ => and _ s, fun s _ => and _ s, fun s _ => and _ s, bound, pcRule .and⟩

theorem storesAAt_of_exec {i : Instr} {s : State} {ea : Word} (h : exec i s = .next (staExec ea s)) :
    StoresAAt i s ea :=
  ⟨_, h, rfl, fun b => memRead_memWrite b ea s.a s⟩

/-- Settles O26: each form is `staExec` at its mode's effective address. -/
theorem staWritesTheAccumulatorAndNothingElse : Obligations.StaWritesTheAccumulatorAndNothingElse :=
  ⟨fun _ _ => storesAAt_of_exec rfl, fun _ _ => storesAAt_of_exec rfl, fun _ _ => storesAAt_of_exec rfl,
    fun _ _ => storesAAt_of_exec rfl, fun _ _ => storesAAt_of_exec rfl, fun _ _ => storesAAt_of_exec rfl,
    fun _ _ => storesAAt_of_exec rfl, pcRule .sta⟩

/-- The execute part of an STA form is `staExec` at its store address. -/
theorem exec_of_sta {i : Instr} (hmn : i.mnemonic = .sta) (s : State) :
    ∃ ea, storeAddress i s = some ea ∧ exec i s = .next (staExec ea s) := by
  have hcases := exec_cases i s
  simpa [hmn] using hcases

/-- Settles O29: the store address is the one that the write goes to. -/
theorem storesReachOnlyTheirEffectiveAddress : Obligations.StoresReachOnlyTheirEffectiveAddress := by
  intro i s t ht hmn
  obtain ⟨ea, hea, hexec⟩ := exec_of_sta hmn s
  cases hexec.symm.trans ht
  refine ⟨by rw [hea]; rfl, fun ea' hea' => ?_⟩
  cases hea.symm.trans hea'
  have hread (b : Word) : memRead b (staExec ea s) = if b = ea then s.a else memRead b s :=
    memRead_memWrite b ea s.a s
  exact ⟨by rw [hread, if_pos rfl], fun b hb => by rw [hread, if_neg hb]⟩

end Sys2Proof.Machine

/-! ## The step (`50_execution.md` sections 3, 5 and 6, `60_exceptions.md`): proofs -/

namespace Sys2Proof.Machine

/-! ### Where a step goes -/

/-- Settles O30: bytes at PC that decode below the top of memory are fetched, and the fetched instruction runs. -/
theorem stepRunsTheDecodedInstruction : Obligations.StepRunsTheDecodedInstruction :=
  fun _ _ _ hs hdecode hbound => step_of_fetchInstr_ok hs (fetchInstr_of_decode hdecode hbound)

/-- Settles O31, by the fetch's own three checks. -/
theorem stepFaultsByStartAddressAndOpcode : Obligations.StepFaultsByStartAddressAndOpcode := by
  refine ⟨fun s hs htop => step_of_fetchInstr_error hs ?top, fun s hs hne hillegal => step_of_fetchInstr_error hs ?illegal,
    fun s form hs hne hform hpast => step_of_fetchInstr_error hs ?operand⟩
  case top => rw [fetchInstr_eq, if_pos ((eq_top_iff s.pc).mp htop)]
  case illegal =>
    rw [fetchInstr_eq, if_neg (fun e => hne ((eq_top_iff s.pc).mpr e)), Option.isNone_iff_eq_none.mp hillegal]
  case operand =>
    rw [fetchInstr_eq, if_neg (fun e => hne ((eq_top_iff s.pc).mpr e)), hform]
    exact if_pos hpast

theorem runOps_cons_of_next {op : HostOp} {s s' : State} (h : perform op s = .next s') (ops : List HostOp) :
    runOps (op :: ops) s = runOps ops s' := by
  simp [runOps, h]

/-- Settles O3: memory is 0x00 after Reset, and 0x00 is no opcode. -/
theorem firstTickAfterResetRaisesIllegalOpcode : Obligations.FirstTickAfterResetRaisesIllegalOpcode := by
  intro s
  obtain ⟨-, hillegal, -⟩ := stepFaultsByStartAddressAndOpcode
  have htick := hillegal State.reset rfl (by decide) rfl
  rw [runOps_cons_of_next (perform_reset s), runOps_cons_of_next (op := .tick) htick]
  rfl

/-! ### What a step leaves unchanged -/

/-- Settles O32: an execute part leaves the latch empty, so a latched fault was there before or was raised by the fetch. -/
theorem raiseChangesNothingButTheLatch : Obligations.RaiseChangesNothingButTheLatch := by
  intro s t hstep ht
  obtain ⟨-, rfl⟩ | ⟨-, f, -, rfl⟩ | ⟨hs, i, s1, hf, hexec⟩ := step_cases hstep
  · rfl
  · rfl
  · obtain ⟨-, -, rfl⟩ := fetchInstr_ok hf
    exact absurd ((exec_fault hexec).trans hs) ht

/-- Settles O33: each operation looks at the latch first, and Reset does not. -/
theorem faultedEngineDoesNothingUntilReset : Obligations.FaultedEngineDoesNothingUntilReset := by
  intro s hs
  obtain ⟨f, hf⟩ := Option.ne_none_iff_exists'.mp hs
  exact ⟨step_of_fault hf, fun r => unlessFaulted_some hf _, fun addr => unlessFaulted_some hf _,
    fun base bytes => unlessFaulted_some hf _, perform_reset s⟩

/-- A step answers a next state: the state it began in, with or without a fault of the fetch, or what was executed. -/
theorem step_completes (s : State) : ∃ t, step s = .next t := by
  cases hs : s.fault with
  | some f => exact ⟨s, step_of_fault hs⟩
  | none =>
    cases hf : fetchInstr s with
    | error f => exact ⟨_, step_of_fetchInstr_error hs hf⟩
    | ok r =>
      obtain ⟨t, ht⟩ := exec_completes r.1 r.2
      exact ⟨t, (step_of_fetchInstr_ok hs hf).trans ht⟩

/-- Settles O34: only the fetch raises, and it raises two of the three faults. -/
theorem stepsAlwaysAnswerAndOnlyFetchRaises : Obligations.StepsAlwaysAnswerAndOnlyFetchRaises := by
  refine ⟨fun i s => ?_, fun s => ?_⟩
  · obtain ⟨t, ht⟩ := exec_completes i s
    exact ⟨t, ht, exec_fault ht⟩
  · obtain ⟨t, ht⟩ := step_completes s
    refine ⟨t, ht, fun hs => ?_⟩
    obtain ⟨hs', -⟩ | ⟨-, f, hf, rfl⟩ | ⟨-, i, s1, hf, hexec⟩ := step_cases ht
    · exact absurd hs hs'
    · rcases fetchInstr_error hf with ⟨rfl, -⟩ | ⟨rfl, -⟩
      · exact .inr (.inr rfl)
      · exact .inr (.inl ⟨_, rfl⟩)
    · obtain ⟨-, -, rfl⟩ := fetchInstr_ok hf
      exact .inl ((exec_fault hexec).trans hs)

/-- Every instruction has at least two bytes (R80). -/
theorem two_le_length (i : Instr) : 2 ≤ i.length := by
  unfold Instr.length
  cases i.mode.format <;> decide

/-- Settles O35: a step that latches no fault executed what it fetched. -/
theorem executionIsStrictlySequential : Obligations.ExecutionIsStrictlySequential := by
  intro s t hstep ht
  obtain ⟨hs, rfl⟩ | ⟨-, f, -, rfl⟩ | ⟨hs, i, s1, hf, hexec⟩ := step_cases hstep
  · exact absurd ht hs
  · cases ht
  · obtain ⟨⟨rest, hdecode⟩, hbound, rfl⟩ := fetchInstr_ok hf
    have hpc : t.pc.toNat = s.pc.toNat + i.length := by rw [exec_pc hexec, toNat_word_add hbound]
    have hlen := two_le_length i
    exact ⟨i, rest, hdecode, hexec, hpc, by omega⟩

/-! ### The bits of P that nothing writes (R28, R29) -/

/-- Two bytes agree under a mask when they agree at each of its bits. -/
theorem and_mask_eq_iff (p q mask : Byte) :
    p &&& mask = q &&& mask ↔ ∀ k, mask.getLsbD k = true → p.getLsbD k = q.getLsbD k := by
  constructor
  · intro h k hk
    have hbit := congrArg (BitVec.getLsbD · k) h
    simpa [hk] using hbit
  · intro h
    apply BitVec.eq_of_getLsbD_eq
    intro k _
    cases hk : mask.getLsbD k with
    | false => simp [hk]
    | true => simp [hk, h k hk]

/-- No execute part writes a bit of P that is none of C, Z, V and N. -/
theorem exec_getLsbD_of_unused {i : Instr} {s t : State} (ht : exec i s = .next t) {k : Nat} (h0 : k ≠ 0) (h1 : k ≠ 1)
    (h6 : k ≠ 6) (h7 : k ≠ 7) : t.p.getLsbD k = s.p.getLsbD k := by
  obtain ⟨-, m, -, h⟩ | ⟨-, m, -, h⟩ | ⟨-, m, -, h⟩ | ⟨-, m, -, h⟩ | ⟨-, m, -, h⟩ | ⟨-, ea, -, h⟩ := exec_cases i s <;>
  · cases h.symm.trans ht
    simp only [loadInto_getLsbD, adcExec_getLsbD, andExec_getLsbD, staExec_p, h0, h1, h6, h7, if_false]

theorem exec_unused_bits {i : Instr} {s t : State} (h : exec i s = .next t) : t.p &&& 0x3C#8 = s.p &&& 0x3C#8 := by
  refine (and_mask_eq_iff _ _ _).mpr fun k hk => exec_getLsbD_of_unused h ?_ ?_ ?_ ?_ <;>
  · rintro rfl
    exact absurd hk (by decide)

/-- Settles O37: only the execute part writes a register, and none writes SP or an unused bit. -/
theorem noStepWritesSpOrTheUnusedBits : Obligations.NoStepWritesSpOrTheUnusedBits := by
  intro s t hstep
  obtain ⟨-, rfl⟩ | ⟨-, f, -, rfl⟩ | ⟨-, i, s1, hf, hexec⟩ := step_cases hstep
  · exact ⟨rfl, rfl⟩
  · exact ⟨rfl, rfl⟩
  · obtain ⟨-, -, rfl⟩ := fetchInstr_ok hf
    have hsp := exec_sp hexec
    have hbits := exec_unused_bits hexec
    exact ⟨hsp, hbits⟩

/-! ### Every program halts -/

theorem run_succ_of_next {s s' : State} (h : step s = .next s') (n : Nat) :
    Host.Core.run core (n + 1) s = Host.Core.run core n s' := by
  have hcore : core.step s = .next s' := h
  simp [Host.Core.run, hcore]

theorem run_of_fault {s : State} {f : Fault} (h : s.fault = some f) (n : Nat) : Host.Core.run core n s = .next s := by
  induction n with
  | zero => rfl
  | succ n ih => exact (run_succ_of_next (step_of_fault h) n).trans ih

/-- A run of ticks completes, and either a fault is latched at its end or every tick has moved PC up by two or more. -/
theorem run_completes (n : Nat) (s : State) :
    ∃ t : State, Host.Core.run core n s = .next t ∧ (t.fault ≠ none ∨ s.pc.toNat + 2 * n ≤ t.pc.toNat) := by
  induction n generalizing s with
  | zero => exact ⟨s, rfl, .inr (Nat.le_refl _)⟩
  | succ n ih =>
    obtain ⟨s', hstep⟩ := step_completes s
    rw [run_succ_of_next hstep]
    cases hs' : s'.fault with
    | some f => exact ⟨s', run_of_fault hs' n, .inl (by simp [hs'])⟩
    | none =>
      obtain ⟨i, -, -, -, hpc, -⟩ := executionIsStrictlySequential s s' hstep hs'
      have hlen := two_le_length i
      obtain ⟨t, hrun, ht⟩ := ih s'
      exact ⟨t, hrun, ht.imp_right fun hle => by omega⟩

/-- Settles O41: 32768 ticks of two bytes or more each would carry PC past the top of memory. -/
theorem everyProgramHaltsWithin32768Ticks : Obligations.EveryProgramHaltsWithin32768Ticks := by
  intro s
  obtain ⟨t, hrun, hfault | hpc⟩ := run_completes 32768 s
  · exact ⟨t, hrun, hfault⟩
  · have hlt : t.pc.toNat < 65536 := t.pc.isLt
    omega

end Sys2Proof.Machine

/-! ## The invariant of the machine: proofs -/

namespace Sys2Proof.Machine

/-- Settles O38: the reset state lists no cell and latches nothing. -/
theorem invariantHoldsAtReset : Obligations.InvariantHoldsAtReset := ⟨reset_wf, rfl, rfl, trivial⟩

/-- With no fault latched the invariant speaks of memory, SP and the unused bits of P alone. -/
theorem engineInv_iff_of_fault_none {s : State} (hs : s.fault = none) :
    EngineInv s ↔ s.mem.wf = true ∧ s.sp = Config.spReset ∧ s.p &&& 0x3C#8 = 0x00#8 := by
  simp [EngineInv, FaultCoherent, hs]

theorem exec_mem_wf {i : Instr} {s t : State} (ht : exec i s = .next t) (hwf : s.mem.wf = true) : t.mem.wf = true := by
  obtain ⟨-, m, -, h⟩ | ⟨-, m, -, h⟩ | ⟨-, m, -, h⟩ | ⟨-, m, -, h⟩ | ⟨-, m, -, h⟩ | ⟨-, ea, -, h⟩ := exec_cases i s <;>
    cases h.symm.trans ht
  case inr.inr.inr.inr.inr => exact memWrite_wf hwf ea s.a -- STA
  all_goals simpa using hwf

theorem exec_keeps_inv {i : Instr} {s t : State} (hs : s.fault = none) (ht : exec i s = .next t) (hinv : EngineInv s) :
    EngineInv t := by
  obtain ⟨hwf, hsp, hbits⟩ := (engineInv_iff_of_fault_none hs).mp hinv
  exact (engineInv_iff_of_fault_none ((exec_fault ht).trans hs)).mpr
    ⟨exec_mem_wf ht hwf, (exec_sp ht).trans hsp, (exec_unused_bits ht).trans hbits⟩

theorem pcJump_keeps_inv {s : State} (hs : s.fault = none) (addr : Word) (hinv : EngineInv s) :
    EngineInv (pcJump addr s) :=
  (engineInv_iff_of_fault_none (s := pcJump addr s) hs).mpr ((engineInv_iff_of_fault_none hs).mp hinv)

/-- The fault that a fetch raises says what is true of the state the step began in. -/
theorem faultCoherent_of_fetchInstr_error {s : State} {f : Fault} (h : fetchInstr s = .error f) :
    FaultCoherent (raiseFault f s) := by
  rcases fetchInstr_error h with ⟨rfl, htop⟩ | ⟨rfl, hne, hillegal⟩
  · exact ⟨rfl, htop⟩
  · exact ⟨rfl, hne, rfl, Option.isNone_iff_eq_none.mpr hillegal⟩

/-- Settles O39, over what a step can do: stay, raise the fetch's fault, or execute with PC past the instruction. -/
theorem everyStepKeepsTheInvariant : Obligations.EveryStepKeepsTheInvariant := by
  intro s s' hinv hstep
  obtain ⟨-, rfl⟩ | ⟨-, f, hf, rfl⟩ | ⟨hs, i, s1, hf, hexec⟩ := step_cases hstep
  · exact hinv
  · obtain ⟨hwf, hsp, hbits, -⟩ := hinv
    exact ⟨hwf, hsp, hbits, faultCoherent_of_fetchInstr_error hf⟩
  · obtain ⟨-, -, rfl⟩ := fetchInstr_ok hf
    exact exec_keeps_inv (s := pcJump (s.pc + BitVec.ofNat 16 i.length) s) hs hexec (pcJump_keeps_inv hs _ hinv)

@[simp] theorem storeBytes_pc (base : Word) (bytes : List Byte) (s : State) : (storeBytes base bytes s).pc = s.pc := by
  rw [storeBytes_eq]

@[simp] theorem storeBytes_sp (base : Word) (bytes : List Byte) (s : State) : (storeBytes base bytes s).sp = s.sp := by
  rw [storeBytes_eq]

@[simp] theorem storeBytes_p (base : Word) (bytes : List Byte) (s : State) : (storeBytes base bytes s).p = s.p := by
  rw [storeBytes_eq]

@[simp] theorem storeBytes_fault (base : Word) (bytes : List Byte) (s : State) :
    (storeBytes base bytes s).fault = s.fault := by
  rw [storeBytes_eq]

theorem storeBytes_keeps_inv {s : State} (hs : s.fault = none) (base : Word) (bytes : List Byte) (hinv : EngineInv s) :
    EngineInv (storeBytes base bytes s) := by
  obtain ⟨hwf, hsp, hbits⟩ := (engineInv_iff_of_fault_none hs).mp hinv
  rw [engineInv_iff_of_fault_none (by simp [hs])]
  exact ⟨storeBytes_wf hwf base bytes, by simp [hsp], by simp [hbits]⟩

theorem invoke_keeps_inv {s t : State} (hs : s.fault = none) {r : Request} (ht : invoke r s = .next t)
    (hinv : EngineInv s) : EngineInv t := by
  unfold invoke at ht
  cases hr : r.instr? with
  | none =>
    simp only [hr] at ht
    cases ht
    exact hinv
  | some i =>
    simp only [hr] at ht
    exact exec_keeps_inv hs ht hinv

/-- What a faulted engine ignores keeps the invariant if its effect does on an engine with no fault latched. -/
theorem unlessFaulted_keeps_inv {s t : State} {effect : Host.Outcome State Fault Refusal}
    (ht : unlessFaulted s effect = .next t) (hinv : EngineInv s)
    (heffect : s.fault = none → effect = .next t → EngineInv t) : EngineInv t := by
  cases hs : s.fault with
  | none => exact heffect hs ((unlessFaulted_none hs effect).symm.trans ht)
  | some f =>
    cases (unlessFaulted_some hs effect).symm.trans ht
    exact hinv

theorem perform_keeps_inv {op : HostOp} {s t : State} (ht : perform op s = .next t) (hinv : EngineInv s) :
    EngineInv t := by
  cases op with
  | reset =>
    cases (perform_reset s).symm.trans ht
    exact invariantHoldsAtReset
  | load base bytes =>
    refine unlessFaulted_keeps_inv ht hinv fun hs heffect => ?_
    unfold loadBytes at heffect
    split at heffect
    · cases heffect
      exact storeBytes_keeps_inv hs base bytes hinv
    · cases heffect
  | jump addr =>
    refine unlessFaulted_keeps_inv ht hinv fun hs heffect => ?_
    cases heffect
    exact pcJump_keeps_inv hs addr hinv
  | invoke r => exact unlessFaulted_keeps_inv ht hinv fun hs heffect => invoke_keeps_inv hs heffect hinv
  | tick => exact everyStepKeepsTheInvariant s t hinv ht

/-- Settles O40, by induction on the list of operations, each of which keeps the invariant. -/
theorem everyRunOfHostOperationsKeepsTheInvariant : Obligations.EveryRunOfHostOperationsKeepsTheInvariant := by
  intro ops
  induction ops with
  | nil =>
    intro s s' hinv hrun
    cases hrun
    exact hinv
  | cons op ops ih =>
    intro s s' hinv hrun
    cases hop : perform op s with
    | next s1 =>
      rw [runOps_cons_of_next hop] at hrun
      exact ih s1 s' (perform_keeps_inv hop hinv) hrun
    | fault f => simp [runOps, hop] at hrun
    | refused r => simp [runOps, hop] at hrun

end Sys2Proof.Machine

/-! ## What does not steer the machine (`10_state.md`, `50_execution.md` section 2): proofs -/

namespace Sys2Proof.Machine

theorem formAt_congr {s t : State} (hpc : s.pc = t.pc) (hmem : s.mem = t.mem) (form : OpcodeForm) :
    formAt form s = formAt form t := by
  cases form <;> simp [formAt, memRead, hpc, hmem]

/-- A fetch reads PC and memory alone: in two states that agree there it raises the same fault, or fetches the same
instruction and moves PC to the same address. -/
theorem fetchInstr_congr {s t : State} (hpc : s.pc = t.pc) (hmem : s.mem = t.mem) :
    (∃ f, fetchInstr s = .error f ∧ fetchInstr t = .error f) ∨
    ∃ i pc', fetchInstr s = .ok (i, { s with pc := pc' }) ∧ fetchInstr t = .ok (i, { t with pc := pc' }) := by
  have hread : memRead t.pc t = memRead s.pc s := by simp [memRead, hpc, hmem]
  rw [fetchInstr_eq s, fetchInstr_eq t, hread, ← hpc]
  split
  · exact .inl ⟨_, rfl, rfl⟩
  · cases decodeOpcode (memRead s.pc s) with
    | none => exact .inl ⟨_, rfl, rfl⟩
    | some form =>
      dsimp only
      split
      · exact .inl ⟨_, rfl, rfl⟩
      · rw [← formAt_congr hpc hmem]
        exact .inr ⟨_, _, rfl, rfl⟩

/-- X, Y and memory alone decide what an instruction does: in two states that agree there it loads, adds or masks the same
byte, or stores at the same address. -/
theorem exec_congr {s t : State} (hx : s.x = t.x) (hy : s.y = t.y) (hmem : s.mem = t.mem) (i : Instr) :
    (∃ g m, exec i s = .next (loadInto g m s) ∧ exec i t = .next (loadInto g m t)) ∨
    (∃ m, exec i s = .next (adcExec m s) ∧ exec i t = .next (adcExec m t)) ∨
    (∃ m, exec i s = .next (andExec m s) ∧ exec i t = .next (andExec m t)) ∨
    ∃ ea, exec i s = .next (staExec ea s) ∧ exec i t = .next (staExec ea t) := by
  cases s
  cases t
  cases hx
  cases hy
  cases hmem
  cases i
  case adcImm | adcZp | adcZpx | adcAbs | adcAbsx | adcAbsy | adcIndx | adcIndy => exact .inr (.inl ⟨_, rfl, rfl⟩)
  case andImm | andZp | andZpx | andAbs | andAbsx | andAbsy | andIndx | andIndy =>
    exact .inr (.inr (.inl ⟨_, rfl, rfl⟩))
  case staZp | staZpx | staAbs | staAbsx | staAbsy | staIndx | staIndy => exact .inr (.inr (.inr ⟨_, rfl, rfl⟩))
  all_goals exact .inl ⟨_, _, rfl, rfl⟩

/-- A relation between states that agree on PC, X, Y, memory and the latch is kept by every step, if it is kept when both
take a new PC, latch the same fault, or perform the same load, ADC, AND or store. -/
structure StepCompatible (R : State → State → Prop) : Prop where
  agree : ∀ {s t}, R s t → s.pc = t.pc ∧ s.x = t.x ∧ s.y = t.y ∧ s.mem = t.mem ∧ s.fault = t.fault
  withPc : ∀ {s t}, R s t → ∀ pc, R { s with pc := pc } { t with pc := pc }
  raise : ∀ {s t}, R s t → ∀ f, R (raiseFault f s) (raiseFault f t)
  load : ∀ {s t}, R s t → ∀ g m, R (loadInto g m s) (loadInto g m t)
  adc : ∀ {s t}, R s t → ∀ m, R (adcExec m s) (adcExec m t)
  and : ∀ {s t}, R s t → ∀ m, R (andExec m s) (andExec m t)
  sta : ∀ {s t}, R s t → ∀ ea, R (staExec ea s) (staExec ea t)

theorem StepCompatible.exec {R : State → State → Prop} (hR : StepCompatible R) {s t : State} (h : R s t) (i : Instr) :
    ∃ s' t', Machine.exec i s = .next s' ∧ Machine.exec i t = .next t' ∧ R s' t' := by
  obtain ⟨-, hx, hy, hmem, -⟩ := hR.agree h
  obtain ⟨g, m, hs, ht⟩ | ⟨m, hs, ht⟩ | ⟨m, hs, ht⟩ | ⟨ea, hs, ht⟩ := exec_congr hx hy hmem i
  · exact ⟨_, _, hs, ht, hR.load h g m⟩
  · exact ⟨_, _, hs, ht, hR.adc h m⟩
  · exact ⟨_, _, hs, ht, hR.and h m⟩
  · exact ⟨_, _, hs, ht, hR.sta h ea⟩

theorem StepCompatible.step {R : State → State → Prop} (hR : StepCompatible R) {s t : State} (h : R s t) :
    ∃ s' t', Machine.step s = .next s' ∧ Machine.step t = .next t' ∧ R s' t' := by
  obtain ⟨hpc, -, -, hmem, hfault⟩ := hR.agree h
  cases hs : s.fault with
  | some f => exact ⟨s, t, step_of_fault hs, step_of_fault (hfault.symm.trans hs), h⟩
  | none =>
    have ht := hfault.symm.trans hs
    obtain ⟨f, hfs, hft⟩ | ⟨i, pc, hfs, hft⟩ := fetchInstr_congr hpc hmem
    · exact ⟨_, _, step_of_fetchInstr_error hs hfs, step_of_fetchInstr_error ht hft, hR.raise h f⟩
    · rw [step_of_fetchInstr_ok hs hfs, step_of_fetchInstr_ok ht hft]
      exact hR.exec (hR.withPc h pc) i

/-! ### P steers nothing (R32) -/

theorem sameButFlags_stepCompatible : StepCompatible SameButFlags where
  agree := fun ⟨hpc, _, _, hx, hy, hmem, hfault⟩ => ⟨hpc, hx, hy, hmem, hfault⟩
  withPc := fun ⟨_, hrest⟩ _ => ⟨rfl, hrest⟩
  raise := fun ⟨hpc, hsp, ha, hx, hy, hmem, _⟩ _ => ⟨hpc, hsp, ha, hx, hy, hmem, rfl⟩
  load := fun ⟨hpc, hsp, ha, hx, hy, hmem, hfault⟩ g _ => by
    cases g <;> simp [SameButFlags, hpc, hsp, ha, hx, hy, hmem, hfault]
  adc := fun ⟨hpc, hsp, ha, hx, hy, hmem, hfault⟩ _ => by
    simp [SameButFlags, hpc, hsp, ha, hx, hy, hmem, hfault]
  and := fun ⟨hpc, hsp, ha, hx, hy, hmem, hfault⟩ _ => by
    simp [SameButFlags, hpc, hsp, ha, hx, hy, hmem, hfault]
  sta := fun ⟨hpc, hsp, ha, hx, hy, hmem, hfault⟩ _ => by
    simp [SameButFlags, hpc, hsp, ha, hx, hy, hmem, hfault]

/-- Settles O42: no operation of a step reads P into anything but P. -/
theorem flagsNeverSteerExecution : Obligations.FlagsNeverSteerExecution :=
  fun _ _ h => sameButFlags_stepCompatible.step h

/-! ### SP and the unused bits of P influence nothing else (R18, R28, R29) -/

theorem loadInto_used_bits {s t : State} (h : s.p &&& 0xC3#8 = t.p &&& 0xC3#8) (g : Gr) (m : Byte) :
    (loadInto g m s).p &&& 0xC3#8 = (loadInto g m t).p &&& 0xC3#8 := by
  rw [and_mask_eq_iff] at h ⊢
  intro k hk
  rw [loadInto_getLsbD, loadInto_getLsbD, h k hk]

theorem andExec_used_bits {s t : State} (h : s.p &&& 0xC3#8 = t.p &&& 0xC3#8) (ha : s.a = t.a) (m : Byte) :
    (andExec m s).p &&& 0xC3#8 = (andExec m t).p &&& 0xC3#8 := by
  rw [and_mask_eq_iff] at h ⊢
  intro k hk
  rw [andExec_getLsbD, andExec_getLsbD, h k hk, ha]

/-- ADC's one read of P is the C flag, a used bit (R120). -/
theorem adcExec_used_bits {s t : State} (h : s.p &&& 0xC3#8 = t.p &&& 0xC3#8) (ha : s.a = t.a) (m : Byte) :
    (adcExec m s).p &&& 0xC3#8 = (adcExec m t).p &&& 0xC3#8 := by
  rw [and_mask_eq_iff] at h ⊢
  intro k hk
  rw [adcExec_getLsbD, adcExec_getLsbD, h k hk, h 0 (by decide), ha]

theorem sameButUnused_stepCompatible : StepCompatible SameButUnused where
  agree := fun ⟨hpc, _, hx, hy, hmem, hfault, _⟩ => ⟨hpc, hx, hy, hmem, hfault⟩
  withPc := fun ⟨_, hrest⟩ _ => ⟨rfl, hrest⟩
  raise := fun ⟨hpc, ha, hx, hy, hmem, _, hp⟩ _ => ⟨hpc, ha, hx, hy, hmem, rfl, hp⟩
  load := fun ⟨hpc, ha, hx, hy, hmem, hfault, hp⟩ g m => by
    cases g <;> simp [SameButUnused, hpc, ha, hx, hy, hmem, hfault, loadInto_used_bits hp]
  adc := fun ⟨hpc, ha, hx, hy, hmem, hfault, hp⟩ m => by
    simp [SameButUnused, hpc, ha, hx, hy, hmem, hfault, adcExec_used_bits hp ha]
  and := fun ⟨hpc, ha, hx, hy, hmem, hfault, hp⟩ m => by
    simp [SameButUnused, hpc, ha, hx, hy, hmem, hfault, andExec_used_bits hp ha]
  sta := fun ⟨hpc, ha, hx, hy, hmem, hfault, hp⟩ m => by
    simp [SameButUnused, hpc, ha, hx, hy, hmem, hfault, hp]

/-- Settles O43: no operation of a step reads SP, and the one bit of P that decides another bit is C, which agrees. -/
theorem unusedBitsNeverInfluenceAStep : Obligations.UnusedBitsNeverInfluenceAStep :=
  fun _ _ h => sameButUnused_stepCompatible.step h

end Sys2Proof.Machine

/-! ## The host operations (`50_execution.md` sections 2 and 4, `70_reset_and_hazards.md`): proofs -/

namespace Sys2Proof.Machine

/-! ### Invoke -/

/-- Settles O44: the request of a form names the form. -/
theorem invokePerformsTheExecutePartAlone : Obligations.InvokePerformsTheExecutePartAlone := by
  refine ⟨fun i s hs => ?_, fun i s hs => ?_⟩
  · obtain ⟨t, ht⟩ := exec_completes i s
    exact ⟨t, ht, (perform_invoke_of_some i.instr?_request hs).trans ht⟩
  · obtain ⟨-, hinvoke, -⟩ := faultedEngineDoesNothingUntilReset s hs
    exact hinvoke i.request

theorem loadInto_withPc (g : Gr) (m : Byte) (s : State) (pc : Word) :
    loadInto g m { s with pc := pc } = { loadInto g m s with pc := pc } := by
  cases g <;> simp only [loadInto_a_eq, loadInto_x_eq, loadInto_y_eq] <;> rfl

theorem adcExec_withPc (m : Byte) (s : State) (pc : Word) :
    adcExec m { s with pc := pc } = { adcExec m s with pc := pc } := by
  rw [adcExec_eq, adcExec_eq]
  rfl

theorem andExec_withPc (m : Byte) (s : State) (pc : Word) :
    andExec m { s with pc := pc } = { andExec m s with pc := pc } := by
  rw [andExec_eq, andExec_eq]
  rfl

/-- An execute part does the same with another PC, and leaves that PC (R153). -/
theorem exec_withPc {i : Instr} {s t : State} (ht : exec i s = .next t) (pc : Word) :
    exec i { s with pc := pc } = .next { t with pc := pc } := by
  obtain ⟨g, m, h, h'⟩ | ⟨m, h, h'⟩ | ⟨m, h, h'⟩ | ⟨ea, h, h'⟩ :=
    exec_congr (s := s) (t := { s with pc := pc }) rfl rfl rfl i <;>
    cases h.symm.trans ht
  · rw [h', loadInto_withPc]
  · rw [h', adcExec_withPc]
  · rw [h', andExec_withPc]
  · exact h'

/-- Settles O45: an invocation is an execute part or nothing, and neither looks at PC. -/
theorem invokeNeitherReadsNorWritesPc : Obligations.InvokeNeitherReadsNorWritesPc := by
  intro r s hs
  cases hr : r.instr? with
  | none => exact ⟨s, perform_invoke_of_none hr s, rfl, fun pc => perform_invoke_of_none hr _⟩
  | some i =>
    obtain ⟨t, ht⟩ := exec_completes i s
    exact ⟨t, (perform_invoke_of_some hr hs).trans ht, exec_pc ht,
      fun pc => (perform_invoke_of_some (s := { s with pc := pc }) hr hs).trans (exec_withPc ht pc)⟩

/-! ### Load -/

theorem base_add_succ (base : Word) (k : Nat) : base + BitVec.ofNat 16 (k + 1) = base + 1#16 + BitVec.ofNat 16 k := by
  rw [Nat.add_comm, BitVec.ofNat_add, BitVec.add_assoc]

theorem memRead_storeBytes_of_ne {bytes : List Byte} {base addr : Word}
    (h : ∀ k, k < bytes.length → addr ≠ base + BitVec.ofNat 16 k) (s : State) :
    memRead addr (storeBytes base bytes s) = memRead addr s := by
  induction bytes generalizing base s with
  | nil => rfl
  | cons b bytes ih =>
    have hhead : addr ≠ base := by simpa using h 0 (by simp)
    have htail : ∀ k, k < bytes.length → addr ≠ base + 1#16 + BitVec.ofNat 16 k := fun k hk => by
      rw [← base_add_succ]
      exact h (k + 1) (by simpa using hk)
    rw [storeBytes, ih htail, memRead_memWrite, if_neg hhead]

/-- Byte `k` of a load stands at `base + k`: the bytes after it, at most 65535, do not come round to it (R160). -/
theorem memRead_storeBytes_of_getElem? {bytes : List Byte} (hlen : bytes.length ≤ 65536) {k : Nat} {b : Byte}
    (hk : bytes[k]? = some b) (base : Word) (s : State) :
    memRead (base + BitVec.ofNat 16 k) (storeBytes base bytes s) = b := by
  induction bytes generalizing base s k with
  | nil => simp at hk
  | cons c bytes ih =>
    rw [List.length_cons] at hlen
    cases k with
    | zero =>
      cases hk
      have hfree : ∀ j, j < bytes.length → base ≠ base + 1#16 + BitVec.ofNat 16 j := fun j hj heq => by
        rw [← base_add_succ] at heq
        have hnat := congrArg BitVec.toNat heq
        rw [BitVec.toNat_add, BitVec.toNat_ofNat] at hnat
        have := base.isLt
        omega
      rw [BitVec.add_zero, storeBytes, memRead_storeBytes_of_ne hfree, memRead_memWrite, if_pos rfl]
    | succ k =>
      rw [base_add_succ, storeBytes]
      exact ih (by omega) hk _ _

theorem perform_load {s : State} (hs : s.fault = none) {bytes : List Byte} (hlen : bytes.length ≤ 65536) (base : Word) :
    perform (.load base bytes) s = .next (storeBytes base bytes s) :=
  (unlessFaulted_none hs _).trans (if_pos hlen)

/-- Settles O46, by what each address reads after the bytes are stored one by one. -/
theorem loadPlacesItsBytesAndTouchesNothingElse : Obligations.LoadPlacesItsBytesAndTouchesNothingElse :=
  fun s base bytes hs hlen => ⟨storeBytes base bytes s, perform_load hs hlen base, storeBytes_eq base bytes s,
    fun _ _ hk => memRead_storeBytes_of_getElem? hlen hk base s, fun _ h => memRead_storeBytes_of_ne h s⟩

/-! ### A loaded instruction is the next one -/

/-- Up to three bytes stored at PC are the first bytes that a fetch reads. -/
theorem fetchWindow_of_storeBytes {base : Word} {bytes : List Byte} (hlen : bytes.length ≤ 3) {s t : State}
    (hpc : t.pc = base) (hmem : t.mem = (storeBytes base bytes s).mem) : ∃ rest, fetchWindow t = bytes ++ rest := by
  have hread (k : Nat) (b : Byte) (hk : bytes[k]? = some b) : memRead (t.pc + BitVec.ofNat 16 k) t = b := by
    rw [hpc, memRead, hmem]
    exact memRead_storeBytes_of_getElem? (by omega) hk base s
  have hread0 (b : Byte) (hk : bytes[0]? = some b) : memRead t.pc t = b := by simpa using hread 0 b hk
  match bytes, hlen with
  | [], _ => exact ⟨_, rfl⟩
  | [b0], _ => exact ⟨_, by rw [fetchWindow, hread0 b0 rfl]; rfl⟩
  | [b0, b1], _ => exact ⟨_, by rw [fetchWindow, hread0 b0 rfl, hread 1 b1 rfl]; rfl⟩
  | [b0, b1, b2], _ => exact ⟨[], by rw [fetchWindow, hread0 b0 rfl, hread 1 b1 rfl, hread 2 b2 rfl]; rfl⟩

theorem encode_length (i : Instr) : (encode i).length = i.length := by cases i <;> rfl

theorem length_le_three (i : Instr) : i.length ≤ 3 := by
  unfold Instr.length
  cases i.mode.format <;> decide

theorem encode_length_le_three (i : Instr) : (encode i).length ≤ 3 := (encode_length i).trans_le (length_le_three i)

/-- An instruction stored at `base` is the one that the step after a jump there runs. -/
theorem step_pcJump_of_storeBytes {base : Word} {i : Instr} (hbound : base.toNat + i.length ≤ 0xFFFF) {s loaded : State}
    (hloaded : loaded = storeBytes base (encode i) s) (hs : s.fault = none) :
    step (pcJump base loaded) = exec i { loaded with pc := base + BitVec.ofNat 16 i.length } := by
  have hfault : (pcJump base loaded).fault = none := by simp [hloaded, hs]
  have hmem : (pcJump base loaded).mem = (storeBytes base (encode i) s).mem := by rw [pcJump_mem, hloaded]
  obtain ⟨rest, hwindow⟩ := fetchWindow_of_storeBytes (encode_length_le_three i) (pcJump_pc base loaded) hmem
  have hdecode : decode (fetchWindow (pcJump base loaded)) = .ok (i, rest) := by
    rw [hwindow]
    exact decodingAnEncodedInstructionGivesItBack i rest
  exact stepRunsTheDecodedInstruction (pcJump base loaded) i rest hfault hdecode hbound

theorem runOps_tick (s : State) : runOps [.tick] s = step s := by
  obtain ⟨t, ht⟩ := step_completes s
  rw [runOps_cons_of_next (op := .tick) ht, ht]
  rfl

/-- Settles O47: the loaded bytes are the encoding, which the fetch after the jump decodes to the instruction. -/
theorem loadedInstructionRunsAfterJump : Obligations.LoadedInstructionRunsAfterJump := by
  intro s base i hbound
  have hlen := encode_length_le_three i
  obtain ⟨loaded, hloaded⟩ : ∃ loaded, loaded = storeBytes base (encode i) State.reset := ⟨_, rfl⟩
  have hload : perform (.load base (encode i)) State.reset = .next loaded := by
    rw [perform_load rfl (by omega), hloaded]
  have hfault : loaded.fault = none := by rw [hloaded, storeBytes_fault]; rfl
  have hjump : perform (.jump base) loaded = .next (pcJump base loaded) := unlessFaulted_none hfault _
  refine ⟨loaded, hload, ?_⟩
  rw [runOps_cons_of_next (perform_reset s), runOps_cons_of_next hload, runOps_cons_of_next hjump, runOps_tick,
    step_pcJump_of_storeBytes hbound hloaded rfl]

/-! ### A placed table word is the next instruction -/

theorem decode_of_decodeTableWord {nbits w : Nat} {i : Instr} (h : decodeTableWord nbits w = some i) :
    ∃ rest, decode (tableBytes nbits w) = .ok (i, rest) := by
  unfold decodeTableWord at h
  split at h
  next j rest hdecode =>
    cases h
    exact ⟨rest, hdecode⟩
  · cases h

theorem readyToFetch_pc_le (s : State) : (readyToFetch s).pc.toNat ≤ 0xFFFC := by
  unfold readyToFetch
  simp only
  split
  · assumption
  · decide

/-- Settles O48: the three stored bytes are all that the fetch reads, and PC leaves room for them. -/
theorem placedTableWordIsTheNextInstruction : Obligations.PlacedTableWordIsTheNextInstruction := by
  intro s nbits w i hword
  have hpc : (s.withFetchWord nbits w).pc = (readyToFetch s).pc := storeBytes_pc ..
  have hfault : (s.withFetchWord nbits w).fault = none := storeBytes_fault ..
  obtain ⟨rest, hwindow⟩ := fetchWindow_of_storeBytes (bytes := tableBytes nbits w) (Nat.le_refl 3)
    (s := readyToFetch s) (t := s.withFetchWord nbits w) hpc rfl
  have hnil : rest = [] := by simpa [fetchWindow, tableBytes] using congrArg List.length hwindow
  obtain ⟨tail, hdecode⟩ := decode_of_decodeTableWord hword
  rw [← List.append_nil (tableBytes nbits w), ← hnil, ← hwindow] at hdecode
  have hroom : (s.withFetchWord nbits w).pc.toNat ≤ 0xFFFC := hpc ▸ readyToFetch_pc_le s
  have hlen := length_le_three i
  exact stepRunsTheDecodedInstruction _ i tail hfault hdecode (by omega)

end Sys2Proof.Machine
